-- ==== Sys2Proof/Word.lean ====
section
/-! DEFINITION. The word types of the core: bytes, 16-bit words, the 12-bit address immediate and the
register numbers (spec/10_state.md R21, R25, R30; spec/30_encoding.md R72). -/

namespace Sys2Proof

/-- An 8-bit value: a general register, a timer, a memory byte, the immediate nn. -/
abbrev Byte := BitVec 8

/-- A 16-bit value: I, PC, the instruction word. -/
abbrev Word := BitVec 16

/-- The 12-bit address immediate nnn (R74). -/
abbrev Addr12 := BitVec 12

/-- A register number, the 4-bit field x or y: V0 to VF (R21, R75). -/
abbrev Reg := Fin 16

/-- VF, the 16th general register, which receives the flags (R22). -/
abbrev VF : Reg := 15

/-- V0, which Bnnn reads implicitly (R75, R133). -/
abbrev V0 : Reg := 0

end Sys2Proof
end

