-- ==== Sys2Proof/Syntax.lean ====
section
/-! DEFINITION. The instructions: one constructor per row of spec/opcode_table.json (30_encoding.md R78).
The operand types carry the operand ranges of R72, R74 and R75, so every term is a legal instruction. -/

namespace Sys2Proof

/-- The 32 instructions. `x` and `y` are register numbers, `nn` a byte, `nnn` a 12-bit address, `n` a row
count. 8xy6 and 8xyE keep their y field although they do not read it (R79), so that no bit of a word is
lost by decoding. -/
inductive Instr where
  /-- 00E0, CLRSCR (R201). -/
  | clrscr
  /-- 1nnn, JP nnn (R132). -/
  | jp (nnn : Addr12)
  /-- 3xnn, SE Vx, nn (R134). -/
  | seImm (x : Reg) (nn : Byte)
  /-- 4xnn, SNE Vx, nn (R135). -/
  | sneImm (x : Reg) (nn : Byte)
  /-- 5xy0, SE Vx, Vy (R136). -/
  | seReg (x y : Reg)
  /-- 6xnn, LD Vx, nn (R152). -/
  | ldImm (x : Reg) (nn : Byte)
  /-- 7xnn, ADD Vx, nn (R153). -/
  | addImm (x : Reg) (nn : Byte)
  /-- 8xy0, LD Vx, Vy (R154). -/
  | ldReg (x y : Reg)
  /-- 8xy1, OR Vx, Vy (R155). -/
  | orReg (x y : Reg)
  /-- 8xy2, AND Vx, Vy (R156). -/
  | andReg (x y : Reg)
  /-- 8xy3, XOR Vx, Vy (R157). -/
  | xorReg (x y : Reg)
  /-- 8xy4, ADD Vx, Vy (R158). -/
  | addReg (x y : Reg)
  /-- 8xy5, SUB Vx, Vy (R159). -/
  | subReg (x y : Reg)
  /-- 8xy6, SHR Vx, Vy (R160, R161). -/
  | shr (x y : Reg)
  /-- 8xy7, SUBN Vx, Vy (R162). -/
  | subn (x y : Reg)
  /-- 8xyE, SHL Vx, Vy (R163, R164). -/
  | shl (x y : Reg)
  /-- 9xy0, SNE Vx, Vy (R137). -/
  | sneReg (x y : Reg)
  /-- Annn, LD I, nnn (R181). -/
  | ldI (nnn : Addr12)
  /-- Bnnn, JP V0, nnn (R133). -/
  | jpV0 (nnn : Addr12)
  /-- Cxnn, RND Vx, nn (R165). -/
  | rnd (x : Reg) (nn : Byte)
  /-- Dxyn, DRW Vx, Vy, n (R202). -/
  | drw (x y : Reg) (n : Fin 16)
  /-- Ex9E, SKP Vx (R221). -/
  | skp (x : Reg)
  /-- ExA1, SKNP Vx (R222). -/
  | sknp (x : Reg)
  /-- Fx07, LD Vx, DT (R223). -/
  | ldVxDt (x : Reg)
  /-- Fx0A, LD Vx, K (R224). -/
  | ldVxK (x : Reg)
  /-- Fx15, LD DT, Vx (R226). -/
  | ldDtVx (x : Reg)
  /-- Fx18, LD ST, Vx (R227). -/
  | ldStVx (x : Reg)
  /-- Fx1E, ADD I, Vx (R182). -/
  | addI (x : Reg)
  /-- Fx29, LD F, Vx (R183). -/
  | ldF (x : Reg)
  /-- Fx33, LD B, Vx (R184). -/
  | ldB (x : Reg)
  /-- Fx55, LD [I], Vx (R186). -/
  | storeRegs (x : Reg)
  /-- Fx65, LD Vx, [I] (R187). -/
  | loadRegs (x : Reg)
deriving DecidableEq, Repr

end Sys2Proof
end

