-- ==== Sys2Proof/Decode.lean ====
section
/-! DEFINITION. The decoder, total on any bytes and refusing by name, the encoder, and the opcode map
(spec/30_encoding.md R71 to R83). -/

namespace Sys2Proof

/-! ## Fields of an instruction word (R72) -/

/-- `n1 = w[15:12]`, the major opcode. -/
def n1 (w : Word) : BitVec 4 := w.extractLsb' 12 4

/-- `n4 = w[3:0]`. -/
def n4 (w : Word) : BitVec 4 := w.extractLsb' 0 4

/-- `x = w[11:8]`, the register number of Vx. -/
def fieldX (w : Word) : Reg := (w.extractLsb' 8 4).toFin

/-- `y = w[7:4]`, the register number of Vy. -/
def fieldY (w : Word) : Reg := (w.extractLsb' 4 4).toFin

/-- `n = w[3:0]`, the row count of Dxyn. -/
def fieldN (w : Word) : Fin 16 := (w.extractLsb' 0 4).toFin

/-- `nn = w[7:0]`, the byte immediate; also the sub-opcode `low`. -/
def fieldNN (w : Word) : Byte := w.extractLsb' 0 8

/-- `nnn = w[11:0]`, the address immediate. -/
def fieldNNN (w : Word) : Addr12 := w.extractLsb' 0 12

/-! ## Decoding -/

/-- Why bytes are not an instruction. -/
inductive DecodeError where
  /-- Fewer than two bytes are left: every instruction is exactly two (R71). -/
  | truncated
  /-- The word matches no row of the opcode map (R80). -/
  | unimplemented (w : Word)
deriving DecidableEq, Repr

/-- R77, the decode as a function of the word. -/
def decodeWord (w : Word) : Except DecodeError Instr :=
  match n1 w with
  | 0x0#4 => if w = 0x00E0#16 then .ok .clrscr else .error (.unimplemented w)
  | 0x1#4 => .ok (.jp (fieldNNN w))
  | 0x3#4 => .ok (.seImm (fieldX w) (fieldNN w))
  | 0x4#4 => .ok (.sneImm (fieldX w) (fieldNN w))
  | 0x5#4 => if n4 w = 0x0#4 then .ok (.seReg (fieldX w) (fieldY w)) else .error (.unimplemented w)
  | 0x6#4 => .ok (.ldImm (fieldX w) (fieldNN w))
  | 0x7#4 => .ok (.addImm (fieldX w) (fieldNN w))
  | 0x8#4 =>
    match n4 w with
    | 0x0#4 => .ok (.ldReg (fieldX w) (fieldY w))
    | 0x1#4 => .ok (.orReg (fieldX w) (fieldY w))
    | 0x2#4 => .ok (.andReg (fieldX w) (fieldY w))
    | 0x3#4 => .ok (.xorReg (fieldX w) (fieldY w))
    | 0x4#4 => .ok (.addReg (fieldX w) (fieldY w))
    | 0x5#4 => .ok (.subReg (fieldX w) (fieldY w))
    | 0x6#4 => .ok (.shr (fieldX w) (fieldY w))
    | 0x7#4 => .ok (.subn (fieldX w) (fieldY w))
    | 0xE#4 => .ok (.shl (fieldX w) (fieldY w))
    | _ => .error (.unimplemented w)
  | 0x9#4 => if n4 w = 0x0#4 then .ok (.sneReg (fieldX w) (fieldY w)) else .error (.unimplemented w)
  | 0xA#4 => .ok (.ldI (fieldNNN w))
  | 0xB#4 => .ok (.jpV0 (fieldNNN w))
  | 0xC#4 => .ok (.rnd (fieldX w) (fieldNN w))
  | 0xD#4 => .ok (.drw (fieldX w) (fieldY w) (fieldN w))
  | 0xE#4 =>
    match fieldNN w with
    | 0x9E#8 => .ok (.skp (fieldX w))
    | 0xA1#8 => .ok (.sknp (fieldX w))
    | _ => .error (.unimplemented w)
  | 0xF#4 =>
    match fieldNN w with
    | 0x07#8 => .ok (.ldVxDt (fieldX w))
    | 0x0A#8 => .ok (.ldVxK (fieldX w))
    | 0x15#8 => .ok (.ldDtVx (fieldX w))
    | 0x18#8 => .ok (.ldStVx (fieldX w))
    | 0x1E#8 => .ok (.addI (fieldX w))
    | 0x29#8 => .ok (.ldF (fieldX w))
    | 0x33#8 => .ok (.ldB (fieldX w))
    | 0x55#8 => .ok (.storeRegs (fieldX w))
    | 0x65#8 => .ok (.loadRegs (fieldX w))
    | _ => .error (.unimplemented w)
  | _ => .error (.unimplemented w)

/-- The big-endian word of two bytes, `(hi << 8) | lo` (20_memory.md R55). -/
def wordOfBytes (hi lo : Byte) : Word := hi ++ lo

/-- Decode the instruction at the head of a list of bytes, high byte first, and give the rest back. -/
def decode : List Byte → Except DecodeError (Instr × List Byte)
  | hi :: lo :: rest =>
    match decodeWord (wordOfBytes hi lo) with
    | .ok i => .ok (i, rest)
    | .error e => .error e
  | _ => .error .truncated

/-- The instruction the decoder reads from a row's bits as spec/opcode_table.json numbers them: one word,
bit 0 its least significant bit, stored high byte first. -/
def decodeTableWord (nbits w : Nat) : Option Instr :=
  let v := w % 2 ^ nbits
  match decode [BitVec.ofNat 8 (v / 256), BitVec.ofNat 8 v] with
  | .ok (i, _) => some i
  | .error _ => none

/-! ## Encoding (R73, R78): each format is the sum of its digits at their places -/

/-- Formats `Oxyn` and `OxyS`: major opcode, x, y, low digit. -/
def wordXYN (op : Nat) (x y : Reg) (n : Nat) : Word :=
  BitVec.ofNat 16 (op * 0x1000 + x.val * 0x100 + y.val * 0x10 + n)

/-- Formats `Oxnn` and `OxSS`: major opcode, x, low byte. -/
def wordXNN (op : Nat) (x : Reg) (nn : Byte) : Word :=
  BitVec.ofNat 16 (op * 0x1000 + x.val * 0x100 + nn.toNat)

/-- Format `Onnn`: major opcode, address. -/
def wordNNN (op : Nat) (nnn : Addr12) : Word :=
  BitVec.ofNat 16 (op * 0x1000 + nnn.toNat)

/-- The word of an instruction, from the patterns of R78. -/
def encode : Instr → Word
  | .clrscr => 0x00E0
  | .jp nnn => wordNNN 0x1 nnn
  | .seImm x nn => wordXNN 0x3 x nn
  | .sneImm x nn => wordXNN 0x4 x nn
  | .seReg x y => wordXYN 0x5 x y 0x0
  | .ldImm x nn => wordXNN 0x6 x nn
  | .addImm x nn => wordXNN 0x7 x nn
  | .ldReg x y => wordXYN 0x8 x y 0x0
  | .orReg x y => wordXYN 0x8 x y 0x1
  | .andReg x y => wordXYN 0x8 x y 0x2
  | .xorReg x y => wordXYN 0x8 x y 0x3
  | .addReg x y => wordXYN 0x8 x y 0x4
  | .subReg x y => wordXYN 0x8 x y 0x5
  | .shr x y => wordXYN 0x8 x y 0x6
  | .subn x y => wordXYN 0x8 x y 0x7
  | .shl x y => wordXYN 0x8 x y 0xE
  | .sneReg x y => wordXYN 0x9 x y 0x0
  | .ldI nnn => wordNNN 0xA nnn
  | .jpV0 nnn => wordNNN 0xB nnn
  | .rnd x nn => wordXNN 0xC x nn
  | .drw x y n => wordXYN 0xD x y n.val
  | .skp x => wordXNN 0xE x 0x9E
  | .sknp x => wordXNN 0xE x 0xA1
  | .ldVxDt x => wordXNN 0xF x 0x07
  | .ldVxK x => wordXNN 0xF x 0x0A
  | .ldDtVx x => wordXNN 0xF x 0x15
  | .ldStVx x => wordXNN 0xF x 0x18
  | .addI x => wordXNN 0xF x 0x1E
  | .ldF x => wordXNN 0xF x 0x29
  | .ldB x => wordXNN 0xF x 0x33
  | .storeRegs x => wordXNN 0xF x 0x55
  | .loadRegs x => wordXNN 0xF x 0x65

/-- The high byte of a word. -/
def highByte (w : Word) : Byte := w.extractLsb' 8 8

/-- The low byte of a word. -/
def lowByte (w : Word) : Byte := w.extractLsb' 0 8

/-- The two bytes of an instruction as memory holds them, high byte first (20_memory.md R55). -/
def encodeBytes (i : Instr) : List Byte := [highByte (encode i), lowByte (encode i)]

/-! ## The opcode map (R78) -/

/-- One row of R78: a word `w` selects the row when `w & mask = bits`. -/
structure OpcodeRow where
  bits : Word
  mask : Word
deriving DecidableEq, Repr

/-- Whether a word selects a row (R76, R78). -/
def OpcodeRow.selects (r : OpcodeRow) (w : Word) : Bool := w &&& r.mask == r.bits

/-- Rows 1 to 17 of R78. -/
def opcodeMapLow : List OpcodeRow :=
  [⟨0x00E0, 0xFFFF⟩, ⟨0x1000, 0xF000⟩, ⟨0x3000, 0xF000⟩, ⟨0x4000, 0xF000⟩, ⟨0x5000, 0xF00F⟩,
   ⟨0x6000, 0xF000⟩, ⟨0x7000, 0xF000⟩, ⟨0x8000, 0xF00F⟩, ⟨0x8001, 0xF00F⟩, ⟨0x8002, 0xF00F⟩,
   ⟨0x8003, 0xF00F⟩, ⟨0x8004, 0xF00F⟩, ⟨0x8005, 0xF00F⟩, ⟨0x8006, 0xF00F⟩, ⟨0x8007, 0xF00F⟩,
   ⟨0x800E, 0xF00F⟩, ⟨0x9000, 0xF00F⟩]

/-- Rows 18 to 32 of R78. -/
def opcodeMapHigh : List OpcodeRow :=
  [⟨0xA000, 0xF000⟩, ⟨0xB000, 0xF000⟩, ⟨0xC000, 0xF000⟩, ⟨0xD000, 0xF000⟩, ⟨0xE09E, 0xF0FF⟩,
   ⟨0xE0A1, 0xF0FF⟩, ⟨0xF007, 0xF0FF⟩, ⟨0xF00A, 0xF0FF⟩, ⟨0xF015, 0xF0FF⟩, ⟨0xF018, 0xF0FF⟩,
   ⟨0xF01E, 0xF0FF⟩, ⟨0xF029, 0xF0FF⟩, ⟨0xF033, 0xF0FF⟩, ⟨0xF055, 0xF0FF⟩, ⟨0xF065, 0xF0FF⟩]

/-- R78, the opcode map, in the spec's order. -/
def opcodeMap : List OpcodeRow := opcodeMapLow ++ opcodeMapHigh

end Sys2Proof
end

