-- ==== Sys2Proof/Config.lean ====
section
/-! DEFINITION. The numbers the source fixes (spec/00_scope.md R5), the named parameters it leaves open
(R6) with the spec's defaults, and the one free value of the model: the byte Cxnn draws (42_alu.md R166). -/

namespace Sys2Proof

/-- MEM_SIZE, fixed by the source (R5). -/
abbrev memSize : Nat := 4096

/-- NKEY, the number of meaningful key indices (R5). -/
abbrev nkey : Nat := 16

/-- Bytes of one font glyph (R5). -/
abbrev glyphBytes : Nat := 5

/-- DRAW_EDGE: what happens to set sprite bits beyond the display (44_display.md R204). -/
inductive DrawEdge where
  | fault
  | clip
  | wrap
deriving DecidableEq, Repr

/-- DRAW_VF: what VF becomes when a draw drew no set bit (R206). -/
inductive DrawVf where
  | clear
  | keep
deriving DecidableEq, Repr

/-- BCD_ZERO: how many bytes Fx33 writes for the value 0 (43_index_memory.md R185). -/
inductive BcdZero where
  | one
  | none
deriving DecidableEq, Repr

/-- SHIFT_VF_DEST: the final VF of 8xy6 and 8xyE with x = F (42_alu.md R161, R164). -/
inductive ShiftVfDest where
  | prestate
  | sequential
deriving DecidableEq, Repr

/-- I_MASK: no mask (0xFFFF) or 12 bits (0x0FFF) (43_index_memory.md R180). -/
inductive IMask where
  | full
  | low12
deriving DecidableEq, Repr

/-- KEY_OOR: Ex9E and ExA1 with Vx >= 16 (45_timers_input.md R220). -/
inductive KeyOor where
  | fault
  | notPressed
deriving DecidableEq, Repr

/-- PAUSED_TICK: what a tick does while paused (40_pipeline.md R103). -/
inductive PausedTick where
  | frozen
  | timersOnly
deriving DecidableEq, Repr

/-- The named parameters of 00_scope.md R6 that the source does not fix. They are constant for the life
of a core (90_conflicts.md C9). -/
structure Config where
  /-- `LOAD_ADDR`, D1. -/
  loadAddr    : Nat
  /-- `FONT_BASE`, D2. -/
  fontBase    : Nat
  /-- `FONT_IMAGE`, D2: the bytes present at `FONT_BASE` after power-on. -/
  fontImage   : List Byte
  /-- `DISP_W`, D3. -/
  dispW       : Nat
  /-- `DISP_H`, D3. -/
  dispH       : Nat
  /-- `ON_VAL`, D4. -/
  onVal       : Byte
  /-- `DRAW_EDGE`, D6. -/
  drawEdge    : DrawEdge
  /-- `DRAW_VF`, D7. -/
  drawVf      : DrawVf
  /-- `BCD_ZERO`, D8. -/
  bcdZero     : BcdZero
  /-- `SHIFT_VF_DEST`, D9. -/
  shiftVfDest : ShiftVfDest
  /-- `I_MASK`, D10. -/
  iMask       : IMask
  /-- `KEY_OOR`, D11. -/
  keyOor      : KeyOor
  /-- `PAUSED_TICK`, D12. -/
  pausedTick  : PausedTick
deriving DecidableEq, Repr

/-- The spec's defaults (R6). They are the spec's own choices, `LOAD_ADDR` and the display size from
general knowledge. PRESUMED, unsafe: notes/assumptions/2.md. -/
def Config.specDefault : Config where
  loadAddr    := 0x200
  fontBase    := 0x000
  fontImage   := []
  dispW       := 64
  dispH       := 32
  onVal       := 0xFF
  drawEdge    := .fault
  drawVf      := .clear
  bcdZero     := .one
  shiftVfDest := .prestate
  iMask       := .full
  keyOor      := .fault
  pausedTick  := .frozen

/-- The random port (60_exceptions.md R255): the raw byte behind the `n`-th draw. It has no body, so no
proof can rest on its value: a claim about Cxnn holds for every sequence of legal draws (42_alu.md R166).
Free value: notes/assumptions/3.md. -/
opaque Config.freeByte : Nat → BitVec 8

end Sys2Proof
end

