-- ==== Sys2Proof/Machine/State.lean ====
section
/-! DEFINITION. The state of the core as plain data (spec/10_state.md R20), the reasons a step can stop, and
the state after power-on reset (R42). -/

namespace Sys2Proof.Machine

/-- The interface's fault reasons. There is none: every fault the spec describes is the fault latch of
60_exceptions.md R241, which the model TAKES as a next state (`State.fault`), and no other behaviour of the
core stops it. DEDUCED, notes/assumptions/4.md. -/
inductive Fault
deriving DecidableEq, Repr

/-- Why the model has no transition. -/
inductive Refusal where
  /-- Raised by an arm of `exec` for an instruction without a meaning; no arm is left that does. Safe. -/
  | notModelled (mnemonic : String)
  /-- Raised by the host's `load` of more than MEM_SIZE - LOAD_ADDR bytes (70_reset_and_hazards.md R276:
  "The model has no meaning for it and takes no step"). Never raised by a tick. Safe. -/
  | loadTooLong
  /-- Raised by the host's `key_press` and `key_release` of an index of 16 or more (60_exceptions.md R252:
  "the model has no such entry"). Never raised by a tick. Safe. -/
  | keyIndexOutOfRange
deriving DecidableEq, Repr

/-- The run states (R37). -/
inductive RunState where
  | running
  | paused
deriving DecidableEq, Repr

/-- The contents of the fault latch (60_exceptions.md R242). -/
inductive FaultCause where
  /-- Code 0: no fault. -/
  | none
  /-- Code 1, `FETCH_OOR`: raised by the fetch stage. -/
  | fetchOor
  /-- Code 2, `LOAD_OOR`: raised by Dxyn and Fx65. -/
  | loadOor
  /-- Code 3, `STORE_OOR`: raised by Fx33 and Fx55. -/
  | storeOor
  /-- Code 4, `DRAW_OOR`: raised by Dxyn under `DRAW_EDGE = fault`. -/
  | drawOor
  /-- Code 5, `KEY_OOR`: raised by Ex9E and ExA1 under `KEY_OOR = fault`. -/
  | keyOor
deriving DecidableEq, Repr

/-- Memory as (address, byte) cells. A legal memory is in canonical form, `Memory.wf` in Machine/Ops.lean. -/
structure Memory where
  cells : List Host.Cell
deriving DecidableEq, Repr

/-- What an address no cell lists reads as: the reset contents, 0x00 (20_memory.md R61). -/
def Memory.unlisted : Byte := 0x00

/-- Memory with nothing listed. -/
def Memory.empty : Memory := ⟨[]⟩

/-- The display buffer, one list of cells a row, top row first, left cell first (R32). -/
structure Display where
  rows : List (List Bool)
deriving DecidableEq, Repr

/-- A display of `w` columns and `h` rows with every cell off. -/
def Display.blank (w h : Nat) : Display := ⟨List.replicate h (List.replicate w false)⟩

/-- The whole state of the core (R20), and the two fields of the model's own: `cfg` and `draws`. -/
structure State where
  /-- V0 to VF (R21). -/
  v         : Vector Byte 16
  /-- The index register I (R30). -/
  i         : Word
  /-- The program counter PC (R25). -/
  pc        : Word
  /-- The delay timer DT (R31). -/
  dt        : Byte
  /-- The sound timer ST (R31). -/
  st        : Byte
  /-- Memory (20_memory.md R50). -/
  mem       : Memory
  /-- The display buffer (R32). -/
  pix       : Display
  /-- The key matrix (R34). -/
  key       : Vector Bool 16
  /-- The wait-for-key flag (R35). -/
  waitKey   : Bool
  /-- The current opcode (R36). -/
  opcode    : Word
  /-- The run state (R37). -/
  run       : RunState
  /-- The fault latch (R38). -/
  fault     : FaultCause
  /-- The value recorded with the cause (R38). -/
  faultInfo : Nat
  /-- The unimplemented-word report (R39). -/
  unimpl    : Bool
  /-- How many random bytes Cxnn has taken. The model's own field, notes/assumptions/3.md. -/
  draws     : Nat
  /-- The parameters, constant. The model's own field, notes/assumptions/1.md. -/
  cfg       : Config
deriving DecidableEq, Repr

/-- The machine right after power-on reset (R42, R270) with the default parameters, whose `FONT_IMAGE` is
empty. `draws` starts at 0, a value of the model's own (DESIGN CHOICE, notes/assumptions/3.md). -/
def State.reset : State where
  v         := Vector.replicate 16 0x00
  i         := 0x0000
  pc        := 0x0000
  dt        := 0x00
  st        := 0x00
  mem       := Memory.empty
  pix       := Display.blank Config.specDefault.dispW Config.specDefault.dispH
  key       := Vector.replicate 16 false
  waitKey   := false
  opcode    := 0x0000
  run       := .running
  fault     := .none
  faultInfo := 0
  unimpl    := false
  draws     := 0
  cfg       := Config.specDefault

end Sys2Proof.Machine
end

