-- ==== Sys2Proof/Machine/Ops.lean ====
section
/-! DEFINITION. The named operations over memory, display and registers, and raising a fault
(spec/00_scope.md R10; 20_memory.md R50 to R55; 60_exceptions.md R241). -/

namespace Sys2Proof.Machine

/-- What every meaning and every stage answers with. -/
abbrev Result := Host.Outcome State Fault Refusal

/-! ## Memory -/

/-- The byte a list of cells holds at an address. -/
def Memory.lookup : List Host.Cell → Nat → Byte
  | [], _ => Memory.unlisted
  | (k, b) :: rest, a => if k = a then b else Memory.lookup rest a

/-- Put a byte at an address, keeping the addresses rising and listing no byte equal to the unlisted one. -/
def Memory.insert : List Host.Cell → Nat → Byte → List Host.Cell
  | [], a, b => if b = Memory.unlisted then [] else [(a, b)]
  | (k, c) :: rest, a, b =>
    if a < k then (if b = Memory.unlisted then (k, c) :: rest else (a, b) :: (k, c) :: rest)
    else if a = k then (if b = Memory.unlisted then rest else (a, b) :: rest)
    else (k, c) :: Memory.insert rest a b

/-- `mem[a]` (R52, for an address that is in range). -/
def Memory.get (m : Memory) (a : Nat) : Byte := Memory.lookup m.cells a

/-- `mem[a] <- b` (R53, for an address that is in range). -/
def Memory.set (m : Memory) (a : Nat) (b : Byte) : Memory := ⟨Memory.insert m.cells a b⟩

/-- The canonical form: addresses strictly rising, all of them below MEM_SIZE, and no byte equal to what an
unlisted address reads as. -/
def Memory.wfFrom : Nat → List Host.Cell → Bool
  | _, [] => true
  | lo, (k, b) :: rest =>
    decide (lo ≤ k) && decide (k < memSize) && (b != Memory.unlisted) && Memory.wfFrom (k + 1) rest

/-- A memory in canonical form. -/
def Memory.wf (m : Memory) : Bool := Memory.wfFrom 0 m.cells

/-- The `len` bytes at `a`, `a + 1`, ..., single byte reads in rising order (R58). -/
def Memory.readBytes (m : Memory) (a : Nat) : Nat → List Byte
  | 0 => []
  | len + 1 => m.get a :: m.readBytes (a + 1) len

/-- Write bytes at `a`, `a + 1`, ..., single byte writes in rising order (R58). -/
def Memory.writeBytes (m : Memory) (a : Nat) : List Byte → Memory
  | [] => m
  | b :: bs => (m.set a b).writeBytes (a + 1) bs

/-- The lowest of the addresses `a`, ..., `a + len - 1` that lies at or above MEM_SIZE, if any does. The
addresses are exact naturals, taken modulo nothing (R54); what is reported is the lowest (R242). -/
def outOfRange (a len : Nat) : Option Nat :=
  if len = 0 ∨ a + len ≤ memSize then none else some (max a memSize)

/-! ## Display -/

/-- `Pix(px, py)` (R10). A cell outside the buffer does not exist; it is given as off, and no rule reads one. -/
def Display.cell (d : Display) (px py : Nat) : Bool := (d.rows.getD py []).getD px false

/-- Flip the cell (px, py): `Pix(px, py) <- 1 - Pix(px, py)` (44_display.md R205). -/
def Display.toggle (d : Display) (px py : Nat) : Display :=
  ⟨d.rows.modify py fun row => row.modify px (fun b => !b)⟩

/-- Flip the cells of a list, one after the other (R205). -/
def Display.toggleAll (d : Display) : List (Nat × Nat) → Display
  | [] => d
  | (px, py) :: rest => (d.toggle px py).toggleAll rest

/-! ## Registers -/

/-- `V[r]`. -/
def State.V (s : State) (r : Reg) : Byte := s.v[r.val]

/-- `V[r] <- b`. -/
def State.setV (s : State) (r : Reg) (b : Byte) : State := { s with v := s.v.set r.val b r.isLt }

/-- The word of `I_MASK`. -/
def IMask.toWord : IMask → Word
  | .full => 0xFFFF
  | .low12 => 0x0FFF

/-- Every write to I: `I <- (v mod 2^16) & I_MASK` (43_index_memory.md R180). -/
def State.setI (s : State) (v : Nat) : State :=
  { s with i := BitVec.ofNat 16 v &&& IMask.toWord s.cfg.iMask }

/-- Every write to PC: `PC <- v mod 2^16` (10_state.md R29). -/
def State.setPc (s : State) (v : Nat) : State := { s with pc := BitVec.ofNat 16 v }

/-- `skip_if(c)`: add 2 to PC when `c` holds (41_control_flow.md R131). -/
def State.skipIf (s : State) (c : Bool) : State := if c then s.setPc (s.pc.toNat + 2) else s

/-- `V[0..x]`, the registers Fx55 stores, V0 first. -/
def State.regsUpTo (s : State) (x : Reg) : List Byte := s.v.toList.take (x.val + 1)

/-- `V[j] <- bs[j]` for the `j` that `bs` has; the registers above keep their values (R187). -/
def State.loadV (s : State) (bs : List Byte) : State :=
  { s with v := s.v.mapIdx fun j b => bs.getD j b }

/-! ## Taking a fault -/

/-- `raise Fault(cause, info)` at the instruction address `at` (60_exceptions.md R241): set the latch, point PC
at the faulting instruction, write nothing else. There is no return from a fault: only power-on clears the
latch (R244). -/
def State.raiseAt (s : State) (cause : FaultCause) (info : Nat) (at' : Word) : State :=
  { s with fault := cause, faultInfo := info, pc := at' }

/-- Raise a fault from inside an instruction. PC has already been advanced (40_pipeline.md R107), so the
instruction's own address is PC - 2 (R111). -/
def State.raise (s : State) (cause : FaultCause) (info : Nat) : State :=
  s.raiseAt cause info (s.pc - 2)

end Sys2Proof.Machine
end

