-- ==== Sys2Proof/Machine/Flags.lean ====
section
/-! DEFINITION. Every value an instruction computes for VF (spec/10_state.md R41). -/

namespace Sys2Proof.Machine

/-- A 1-bit flag as the byte 0 or 1 (42_alu.md R150). -/
def flagByte (b : Bool) : Byte := if b then 1 else 0

/-- 8xy4: 1 if the 9-bit sum exceeds 255 (R158). -/
def carryFlag (a b : Byte) : Byte := flagByte (decide (a.toNat + b.toNat > 255))

/-- 8xy5 and 8xy7: 1 if the minuend is at least the subtrahend, "not borrow" (R151, R159, R162). -/
def notBorrowFlag (minuend subtrahend : Byte) : Byte := flagByte (decide (subtrahend.toNat ≤ minuend.toNat))

/-- 8xy6: the bit shifted out on the right (R160). -/
def shiftOutRight (a : Byte) : Byte := a &&& 0x01

/-- 8xyE: the bit shifted out on the left (R163). -/
def shiftOutLeft (a : Byte) : Byte := (a &&& 0x80) >>> 7

/-- Dxyn: 1 when any set bit was drawn; otherwise 0, or VF unchanged, by `DRAW_VF` (44_display.md R206). -/
def drawFlag (c : Config) (drawn : List (Nat × Nat)) (vf : Byte) : Byte :=
  if drawn.isEmpty then
    match c.drawVf with
    | .clear => 0
    | .keep => vf
  else 1

end Sys2Proof.Machine
end

