-- ==== Sys2Proof/Machine/Operands.lean ====
section
/-! DEFINITION. The operand forms that are more than a register or an immediate: decimal digits, font
addresses, sprite pixels, keys and the random byte. -/

namespace Sys2Proof.Machine

/-! ## Fx29 and Fx33 -/

/-- `FONT_BASE + 5 * v`, with the whole 8-bit value (43_index_memory.md R183). -/
def fontAddr (c : Config) (v : Byte) : Nat := c.fontBase + glyphBytes * v.toNat

/-- `digits(v)`, how many bytes Fx33 writes (R185). -/
def bcdCount (c : Config) (v : Byte) : Nat :=
  if 100 ≤ v.toNat then 3
  else if 10 ≤ v.toNat then 2
  else if 1 ≤ v.toNat then 1
  else
    match c.bcdZero with
    | .one => 1
    | .none => 0

/-- The bytes Fx33 writes from `mem[I]` up: ones, tens, hundreds (R184). -/
def bcdBytes (c : Config) (v : Byte) : List Byte :=
  [BitVec.ofNat 8 (v.toNat % 10), BitVec.ofNat 8 (v.toNat / 10 % 10), BitVec.ofNat 8 (v.toNat / 100)].take (bcdCount c v)

/-! ## Dxyn -/

/-- The set pixels of one sprite row at the display row `py`, left to right: bit 7 - c is column offset c
(44_display.md R203). -/
def rowPixels (px0 py : Nat) (row : Byte) : List (Nat × Nat) :=
  ((List.range 8).filter fun c => row.getLsbD (7 - c)).map fun c => (px0 + c, py)

/-- `S`, the set pixels of a sprite in order of row, then column (R202). -/
def spritePixels (px0 py0 : Nat) : List Byte → List (Nat × Nat)
  | [] => []
  | row :: rows => rowPixels px0 py0 row ++ spritePixels px0 (py0 + 1) rows

/-- Whether a pixel lies on the display. -/
def onDisplay (c : Config) (p : Nat × Nat) : Bool := decide (p.1 < c.dispW) && decide (p.2 < c.dispH)

/-- `fault_info` of DRAW_OOR (60_exceptions.md R242). -/
def drawOorInfo (p : Nat × Nat) : Nat := p.1 + 512 * p.2

/-- `edge(S)` (44_display.md R204): the pixels to flip, or the `fault_info` of DRAW_OOR. -/
def edge (c : Config) (ps : List (Nat × Nat)) : Except Nat (List (Nat × Nat)) :=
  match c.drawEdge with
  | .fault =>
    match ps.find? fun p => !onDisplay c p with
    | some p => .error (drawOorInfo p)
    | none => .ok ps
  | .clip => .ok (ps.filter (onDisplay c))
  | .wrap => .ok (ps.map fun p => (p.1 % c.dispW, p.2 % c.dispH))

/-! ## Keys -/

/-- Some key 0..15 is pressed (40_pipeline.md R105). -/
def State.anyKey (s : State) : Bool := s.key.toList.any id

/-- The lowest pressed key (45_timers_input.md R228). -/
def State.firstKey (s : State) : Option Nat := s.key.toList.findIdx? id

/-- `pressed(v)` (R220); `none` is the fault KEY_OOR. -/
def State.pressed (s : State) (v : Byte) : Option Bool :=
  match s.key.toList[v.toNat]? with
  | some b => some b
  | none =>
    match s.cfg.keyOor with
    | .fault => none
    | .notPressed => some false

/-! ## Cxnn -/

/-- `Draw8(nn)` from the raw byte of the random port: a value in 0..nn, and each of them for some raw byte
(42_alu.md R165, R166). -/
def draw8 (raw nn : Byte) : Byte := BitVec.ofNat 8 (raw.toNat % (nn.toNat + 1))

end Sys2Proof.Machine
end

