-- ==== Sys2Proof/Machine/Alu.lean ====
section
/-! DEFINITION. Meanings of the register and ALU instructions 6xnn, 7xnn, 8xy0 to 8xyE, Cxnn
(spec/42_alu.md). Operands are read at the start; of two writes to one register the later wins
(00_scope.md R11). -/

namespace Sys2Proof.Machine

/-- 6xnn: `V[x] <- nn` (R152). -/
def execLdImm (x : Reg) (nn : Byte) (s : State) : Result := .next (s.setV x nn)

/-- 7xnn: `V[x] <- (a + nn) mod 256`, no flag (R153). -/
def execAddImm (x : Reg) (nn : Byte) (s : State) : Result := .next (s.setV x (s.V x + nn))

/-- 8xy0: `V[x] <- b` (R154). -/
def execLdReg (x y : Reg) (s : State) : Result := .next (s.setV x (s.V y))

/-- 8xy1: `V[x] <- a | b`, VF unchanged (R155). -/
def execOrReg (x y : Reg) (s : State) : Result := .next (s.setV x (s.V x ||| s.V y))

/-- 8xy2: `V[x] <- a & b`, VF unchanged (R156). -/
def execAndReg (x y : Reg) (s : State) : Result := .next (s.setV x (s.V x &&& s.V y))

/-- 8xy3: `V[x] <- a ^ b`, VF unchanged (R157). -/
def execXorReg (x y : Reg) (s : State) : Result := .next (s.setV x (s.V x ^^^ s.V y))

/-- 8xy4: the sum mod 256, then VF = carry (R158). -/
def execAddReg (x y : Reg) (s : State) : Result :=
  .next ((s.setV x (s.V x + s.V y)).setV VF (carryFlag (s.V x) (s.V y)))

/-- 8xy5: Vx - Vy mod 256, then VF = not borrow (R159). -/
def execSubReg (x y : Reg) (s : State) : Result :=
  .next ((s.setV x (s.V x - s.V y)).setV VF (notBorrowFlag (s.V x) (s.V y)))

/-- 8xy7: Vy - Vx mod 256, then VF = not borrow of b - a (R162). -/
def execSubn (x y : Reg) (s : State) : Result :=
  .next ((s.setV x (s.V y - s.V x)).setV VF (notBorrowFlag (s.V y) (s.V x)))

/-- The byte 8xy6 and 8xyE shift, once VF holds the flag in `flagged`: the operand of the start, or Vx as it
now stands, which differs only for x = F (R161, R164, `SHIFT_VF_DEST`). -/
def shiftSource (s flagged : State) (x : Reg) : Byte :=
  match s.cfg.shiftVfDest with
  | .prestate => s.V x
  | .sequential => flagged.V x

/-- 8xy6: VF = bit 0 of Vx, then Vx >> 1; y is not read (R160, R161). -/
def execShr (x _y : Reg) (s : State) : Result :=
  let flagged := s.setV VF (shiftOutRight (s.V x))
  .next (flagged.setV x (shiftSource s flagged x >>> 1))

/-- 8xyE: VF = bit 7 of Vx, then Vx << 1 mod 256; y is not read (R163, R164). -/
def execShl (x _y : Reg) (s : State) : Result :=
  let flagged := s.setV VF (shiftOutLeft (s.V x))
  .next (flagged.setV x (shiftSource s flagged x <<< 1))

/-- Cxnn: `V[x] <- Draw8(nn)`, the draw a free value of the model (R165, R166). -/
def execRnd (x : Reg) (nn : Byte) (s : State) : Result :=
  .next ({ s with draws := s.draws + 1 }.setV x (draw8 (Config.freeByte s.draws) nn))

end Sys2Proof.Machine
end

