-- ==== Sys2Proof/Machine/ControlFlow.lean ====
section
/-! DEFINITION. Meanings of the jumps and skips 1nnn, Bnnn, 3xnn, 4xnn, 5xy0, 9xy0
(spec/41_control_flow.md). PC is already the instruction's address plus 2 (40_pipeline.md R107). -/

namespace Sys2Proof.Machine

/-- 1nnn: `pc <- nnn` (R132). -/
def execJp (nnn : Addr12) (s : State) : Result := .next (s.setPc nnn.toNat)

/-- Bnnn: `pc <- (V[0] + nnn) mod 2^16` (R133). -/
def execJpV0 (nnn : Addr12) (s : State) : Result := .next (s.setPc ((s.V V0).toNat + nnn.toNat))

/-- 3xnn: `skip_if(V[x] = nn)` (R134). -/
def execSeImm (x : Reg) (nn : Byte) (s : State) : Result := .next (s.skipIf (s.V x == nn))

/-- 4xnn: `skip_if(V[x] != nn)` (R135). -/
def execSneImm (x : Reg) (nn : Byte) (s : State) : Result := .next (s.skipIf (s.V x != nn))

/-- 5xy0: `skip_if(V[x] = V[y])` (R136). -/
def execSeReg (x y : Reg) (s : State) : Result := .next (s.skipIf (s.V x == s.V y))

/-- 9xy0: `skip_if(V[x] != V[y])` (R137). -/
def execSneReg (x y : Reg) (s : State) : Result := .next (s.skipIf (s.V x != s.V y))

end Sys2Proof.Machine
end

