-- ==== Sys2Proof/Machine/Graphics.lean ====
section
/-! DEFINITION. Meanings of 00E0 and Dxyn, the two operations of the sprite compositor (spec/44_display.md). -/

namespace Sys2Proof.Machine

/-- 00E0: every cell off (R201). -/
def execClrscr (s : State) : Result := .next { s with pix := Display.blank s.cfg.dispW s.cfg.dispH }

/-- Flip the given cells and set the collision flag (R205, R206). -/
def State.composite (s : State) (drawn : List (Nat × Nat)) : State :=
  { s with pix := s.pix.toggleAll drawn }.setV VF (drawFlag s.cfg drawn (s.V VF))

/-- Dxyn: XOR the n rows at I onto the display at (Vx, Vy), and set VF (R202). LOAD_OOR comes before
DRAW_OOR (60_exceptions.md R245), and both before any write. -/
def execDrw (x y : Reg) (n : Fin 16) (s : State) : Result :=
  match outOfRange s.i.toNat n.val with
  | some a => .next (s.raise .loadOor a)
  | none =>
    match edge s.cfg (spritePixels (s.V x).toNat (s.V y).toNat (s.mem.readBytes s.i.toNat n.val)) with
    | .error info => .next (s.raise .drawOor info)
    | .ok drawn => .next (s.composite drawn)

end Sys2Proof.Machine
end

