-- ==== Sys2Proof/Machine/IndexMemory.lean ====
section
/-! DEFINITION. Meanings of the index-register and memory instructions Annn, Fx1E, Fx29, Fx33, Fx55, Fx65
(spec/43_index_memory.md). A fault check comes before the first write (40_pipeline.md R111). -/

namespace Sys2Proof.Machine

/-- Annn: `I <- nnn & I_MASK` (R181). -/
def execLdI (nnn : Addr12) (s : State) : Result := .next (s.setI nnn.toNat)

/-- Fx1E: `I <- ((I + v) mod 2^16) & I_MASK`, VF unchanged (R182). -/
def execAddI (x : Reg) (s : State) : Result := .next (s.setI (s.i.toNat + (s.V x).toNat))

/-- Fx29: `I <- ((FONT_BASE + 5 * v) mod 2^16) & I_MASK` (R183). -/
def execLdF (x : Reg) (s : State) : Result := .next (s.setI (fontAddr s.cfg (s.V x)))

/-- Store bytes at I, or raise STORE_OOR with nothing written; then continue. -/
def storeAtI (s : State) (bs : List Byte) (after : State → State) : Result :=
  match outOfRange s.i.toNat bs.length with
  | some a => .next (s.raise .storeOor a)
  | none => .next (after { s with mem := s.mem.writeBytes s.i.toNat bs })

/-- Fx33: the decimal digits at I, least significant first, then I at the glyph of Vx (R184). -/
def execLdB (x : Reg) (s : State) : Result :=
  storeAtI s (bcdBytes s.cfg (s.V x)) fun t => t.setI (fontAddr s.cfg (s.V x))

/-- Fx55: V0..Vx to memory at I; I unchanged (R186). -/
def execStoreRegs (x : Reg) (s : State) : Result := storeAtI s (s.regsUpTo x) id

/-- Fx65: V0..Vx from memory at I; I unchanged (R187). -/
def execLoadRegs (x : Reg) (s : State) : Result :=
  match outOfRange s.i.toNat (x.val + 1) with
  | some a => .next (s.raise .loadOor a)
  | none => .next (s.loadV (s.mem.readBytes s.i.toNat (x.val + 1)))

end Sys2Proof.Machine
end

