-- ==== Sys2Proof/Machine/TimersInput.lean ====
section
/-! DEFINITION. Meanings of the timer and key instructions Ex9E, ExA1, Fx07, Fx0A, Fx15, Fx18
(spec/45_timers_input.md). -/

namespace Sys2Proof.Machine

/-- Ex9E: `skip_if(pressed(v))`, or KEY_OOR (R221). -/
def execSkp (x : Reg) (s : State) : Result :=
  match s.pressed (s.V x) with
  | some b => .next (s.skipIf b)
  | none => .next (s.raise .keyOor (s.V x).toNat)

/-- ExA1: `skip_if(not pressed(v))`, or KEY_OOR (R222). -/
def execSknp (x : Reg) (s : State) : Result :=
  match s.pressed (s.V x) with
  | some b => .next (s.skipIf (!b))
  | none => .next (s.raise .keyOor (s.V x).toNat)

/-- Fx07: `V[x] <- DT` (R223). -/
def execLdVxDt (x : Reg) (s : State) : Result := .next (s.setV x s.dt)

/-- Fx0A: the lowest pressed key, or arm the wait (R224, R228). The tick rolls PC back (40_pipeline.md R110). -/
def execLdVxK (x : Reg) (s : State) : Result :=
  match s.firstKey with
  | some k => .next (s.setV x (BitVec.ofNat 8 k))
  | none => .next { s with waitKey := true }

/-- Fx15: `DT <- v` (R226). -/
def execLdDtVx (x : Reg) (s : State) : Result := .next { s with dt := s.V x }

/-- Fx18: `ST <- v` (R227). -/
def execLdStVx (x : Reg) (s : State) : Result := .next { s with st := s.V x }

end Sys2Proof.Machine
end

