-- ==== Sys2Proof/Machine/Tick.lean ====
section
/-! DEFINITION. The stages of the tick and their order (spec/40_pipeline.md R101 to R112), over a dispatcher
given as an argument. Machine/Step.lean closes it with `exec`. -/

namespace Sys2Proof.Machine

/-- One timer: down by 1 unless it is 0 (R104). -/
def timerDown (t : Byte) : Byte := if t = 0 then 0 else t - 1

/-- R104, the timer stage. -/
def State.timerStage (s : State) : State := { s with dt := timerDown s.dt, st := timerDown s.st }

/-- R105: the core waits for a key and none is pressed, so the tick ends here. -/
def State.stillWaiting (s : State) : Bool := s.waitKey && !s.anyKey

/-- R105: the wait, if there was one, is over. -/
def State.released (s : State) : State := { s with waitKey := false }

/-- R106: no whole word lies at PC. -/
def State.fetchFaults (s : State) : Bool := decide (memSize ≤ s.pc.toNat + 1)

/-- The two bytes the fetch reads (R106). -/
def State.fetchBytes (s : State) : List Byte := s.mem.readBytes s.pc.toNat 2

/-- The word the fetch reads, big-endian (R106). -/
def State.fetchWord (s : State) : Word := wordOfBytes (s.mem.get s.pc.toNat) (s.mem.get (s.pc.toNat + 1))

/-- R107 and R108: PC past the word, the opcode latched, the report cleared. -/
def State.fetched (s : State) : State :=
  { s.setPc (s.pc.toNat + 2) with opcode := s.fetchWord, unimpl := false }

/-- R112: an unimplemented word only reports itself. -/
def execUnimpl (s : State) : Result := .next { s with unimpl := true }

/-- R110: when the instruction left the wait flag set, PC goes back to it. -/
def State.rollBack (s : State) : State := if s.waitKey then { s with pc := s.pc - 2 } else s

/-- R110 over the dispatcher's answer. -/
def rolledBack : Result → Result
  | .next s => .next s.rollBack
  | .fault r => .fault r
  | .refused r => .refused r

/-- R109: dispatch the fetched word. -/
def dispatch (execute : Instr → State → Result) (bytes : List Byte) (s : State) : Result :=
  match decode bytes with
  | .ok (i, _) => execute i s
  | .error _ => execUnimpl s

/-- Fetch, decode, execute, roll back: the part of a tick after the wait stage. -/
def fetchExecute (execute : Instr → State → Result) (s : State) : Result :=
  if s.fetchFaults then .next (s.raiseAt .fetchOor s.pc.toNat s.pc)
  else rolledBack (dispatch execute s.fetchBytes s.fetched)

/-- The tick of a running core without a fault: timers, wait, then the instruction (R104 to R111). -/
def runTick (execute : Instr → State → Result) (s : State) : Result :=
  if s.timerStage.stillWaiting then .next s.timerStage
  else fetchExecute execute s.timerStage.released

/-- A tick of a paused core (R103). -/
def pausedTick (s : State) : Result :=
  match s.cfg.pausedTick with
  | .frozen => .next s
  | .timersOnly => .next s.timerStage

/-- R101, the whole tick: fault check, run check, then the running tick. -/
def tick (execute : Instr → State → Result) (s : State) : Result :=
  if s.fault ≠ .none then .next s
  else
    match s.run with
    | .paused => pausedTick s
    | .running => runTick execute s

end Sys2Proof.Machine
end

