-- ==== Sys2Proof/Machine/Step.lean ====
section
/-! DEFINITION. The one step of the core, and placing a word where it will fetch. -/

namespace Sys2Proof.Machine

/-- One tick (spec/40_pipeline.md R100, R101). -/
def step (s : State) : Host.Outcome State Fault Refusal := tick exec s

/-- The PC at which the next tick can fetch a whole word: the state's own, or 0 where none lies there. -/
def State.fetchablePc (s : State) : Word := if s.fetchFaults then 0 else s.pc

/-- `s` with the word placed where `step` fetches next. What would keep the next tick from fetching (a set
fault latch, the paused state, the wait flag, a PC with no whole word) is undone; in a state such as
State.reset, where nothing does, only the two bytes change. -/
def State.withFetchWord (s : State) (nbits w : Nat) : State :=
  let word := BitVec.ofNat 16 (w % 2 ^ nbits)
  { s with
    mem := s.mem.writeBytes s.fetchablePc.toNat [highByte word, lowByte word]
    pc := s.fetchablePc
    fault := .none
    faultInfo := 0
    run := .running
    waitKey := false }

end Sys2Proof.Machine
end

