-- ==== Sys2Proof/Machine/HostPort.lean ====
section
/-! DEFINITION. What the host does between ticks: power-on, run control, program load, key events, the
display and sound ports (spec/40_pipeline.md R114 to R116; 60_exceptions.md R251 to R257;
70_reset_and_hazards.md R270 to R278). The diagnostics port is in Machine/Diag.lean. -/

namespace Sys2Proof.Machine

/-- Power-on with the parameters `c` (R270): every field as in 10_state.md R42, then `FONT_IMAGE` at
`FONT_BASE` (20_memory.md R61). -/
def powerOn (c : Config) : State :=
  { State.reset with
    cfg := c
    pix := Display.blank c.dispW c.dispH
    mem := Memory.empty.writeBytes c.fontBase c.fontImage }

/-- A host operation that changes the core (R257). -/
inductive HostOp where
  | start
  | stop
  | pause
  | resume
  | load (bytes : List Byte)
  | keyPress (k : Nat)
  | keyRelease (k : Nat)
deriving DecidableEq, Repr

/-- `start`: PC <- LOAD_ADDR, run <- running (R114). -/
def hostStart (s : State) : Result := .next { s.setPc s.cfg.loadAddr with run := .running }

/-- `stop`: run <- paused (R115). -/
def hostStop (s : State) : Result := .next { s with run := .paused }

/-- `pause`: run <- paused (R115). -/
def hostPause (s : State) : Result := .next { s with run := .paused }

/-- `resume`: run <- running (R116). -/
def hostResume (s : State) : Result := .next { s with run := .running }

/-- `load(bytes)`: copy verbatim to LOAD_ADDR and point PC there (R274); more bytes than fit are refused
(R276). -/
def hostLoad (bytes : List Byte) (s : State) : Result :=
  if s.cfg.loadAddr + bytes.length ≤ memSize then
    .next { s.setPc s.cfg.loadAddr with mem := s.mem.writeBytes s.cfg.loadAddr bytes }
  else .refused .loadTooLong

/-- `key[k] <- b` for k in 0..15; any other index is refused (R252). -/
def hostKey (k : Nat) (b : Bool) (s : State) : Result :=
  if k < nkey then .next { s with key := s.key.setIfInBounds k b } else .refused .keyIndexOutOfRange

/-- One host operation. -/
def hostOp (o : HostOp) (s : State) : Result :=
  match o with
  | .start => hostStart s
  | .stop => hostStop s
  | .pause => hostPause s
  | .resume => hostResume s
  | .load bytes => hostLoad bytes s
  | .keyPress k => hostKey k true s
  | .keyRelease k => hostKey k false s

/-- What can happen to the core: a tick, or a host operation between ticks (R257). -/
inductive Event where
  | tick
  | host (o : HostOp)
deriving DecidableEq, Repr

/-- One event. -/
def react (e : Event) (s : State) : Result :=
  match e with
  | .tick => step s
  | .host o => hostOp o s

/-- Events in the order the host issues them (R248), stopping where there is no transition. -/
def runEvents : List Event → State → Result
  | [], s => .next s
  | e :: es, s =>
    match react e s with
    | .next t => runEvents es t
    | .fault r => .fault r
    | .refused r => .refused r

/-- The intensity byte of a cell: OFF_VAL = 0x00, ON_VAL (10_state.md R33). -/
def intensity (c : Config) (b : Bool) : Byte := if b then c.onVal else 0x00

/-- The display read port: DISP_W, DISP_H and the cells in row-major order (R33; 60_exceptions.md R253). -/
def displayRead (s : State) : Nat × Nat × List Byte :=
  (s.cfg.dispW, s.cfg.dispH, s.pix.rows.flatten.map (intensity s.cfg))

/-- The sound port: ST's value, no tone (60_exceptions.md R251). -/
def soundRead (s : State) : Byte := s.st

end Sys2Proof.Machine
end

