-- ==== Sys2Proof/Machine/Diag.lean ====
section
/-! DEFINITION. The diagnostics port (spec/60_exceptions.md R254) and the disassembler, a pure function of
the word (30_encoding.md R86). The text form is the spec's own syntax of R84 and R85, not the source's
strings, which it does not give: PRESUMED, notes/assumptions/13.md. -/

namespace Sys2Proof.Machine

/-- One hexadecimal digit. -/
def hexDigit (d : Nat) : String := (["0", "1", "2", "3", "4", "5", "6", "7", "8", "9", "A", "B", "C", "D", "E", "F"]).getD (d % 16) "?"

/-- `0x` and `k` digits, most significant first. -/
def hexDigits : Nat → Nat → String
  | 0, _ => ""
  | k + 1, v => hexDigits k (v / 16) ++ hexDigit v

/-- A number of `k` hexadecimal digits. -/
def hexText (k v : Nat) : String := "0x" ++ hexDigits k v

/-- `V0` to `VF`. -/
def regText (r : Reg) : String := "V" ++ hexDigit r.val

/-- An instruction in the syntax of R84. -/
def mnemonic : Instr → String
  | .clrscr => "CLRSCR"
  | .jp nnn => "JP " ++ hexText 3 nnn.toNat
  | .seImm x nn => "SE " ++ regText x ++ ", " ++ hexText 2 nn.toNat
  | .sneImm x nn => "SNE " ++ regText x ++ ", " ++ hexText 2 nn.toNat
  | .seReg x y => "SE " ++ regText x ++ ", " ++ regText y
  | .ldImm x nn => "LD " ++ regText x ++ ", " ++ hexText 2 nn.toNat
  | .addImm x nn => "ADD " ++ regText x ++ ", " ++ hexText 2 nn.toNat
  | .ldReg x y => "LD " ++ regText x ++ ", " ++ regText y
  | .orReg x y => "OR " ++ regText x ++ ", " ++ regText y
  | .andReg x y => "AND " ++ regText x ++ ", " ++ regText y
  | .xorReg x y => "XOR " ++ regText x ++ ", " ++ regText y
  | .addReg x y => "ADD " ++ regText x ++ ", " ++ regText y
  | .subReg x y => "SUB " ++ regText x ++ ", " ++ regText y
  | .shr x y => "SHR " ++ regText x ++ ", " ++ regText y
  | .subn x y => "SUBN " ++ regText x ++ ", " ++ regText y
  | .shl x y => "SHL " ++ regText x ++ ", " ++ regText y
  | .sneReg x y => "SNE " ++ regText x ++ ", " ++ regText y
  | .ldI nnn => "LD I, " ++ hexText 3 nnn.toNat
  | .jpV0 nnn => "JP V0, " ++ hexText 3 nnn.toNat
  | .rnd x nn => "RND " ++ regText x ++ ", " ++ hexText 2 nn.toNat
  | .drw x y n => "DRW " ++ regText x ++ ", " ++ regText y ++ ", " ++ hexText 1 n.val
  | .skp x => "SKP " ++ regText x
  | .sknp x => "SKNP " ++ regText x
  | .ldVxDt x => "LD " ++ regText x ++ ", DT"
  | .ldVxK x => "LD " ++ regText x ++ ", K"
  | .ldDtVx x => "LD DT, " ++ regText x
  | .ldStVx x => "LD ST, " ++ regText x
  | .addI x => "ADD I, " ++ regText x
  | .ldF x => "LD F, " ++ regText x
  | .ldB x => "LD B, " ++ regText x
  | .storeRegs x => "LD [I], " ++ regText x
  | .loadRegs x => "LD " ++ regText x ++ ", [I]"

/-- The disassembly of a word; an unimplemented word is `DW 0xhhhh` (R85). -/
def disassemble (w : Word) : String :=
  match decodeWord w with
  | .ok i => mnemonic i
  | .error _ => "DW " ++ hexText 4 w.toNat

/-- A register of the snapshot, tagged with its bit width (R254). -/
structure RegisterTag where
  name  : String
  width : Nat
  value : Nat
deriving DecidableEq, Repr

/-- The snapshot of all registers: V0 to VF of 8 bits, PC and I of 16 (R254). -/
def registerSnapshot (s : State) : List RegisterTag :=
  (List.finRange 16).map (fun r => ⟨regText r, 8, (s.V r).toNat⟩) ++
    [⟨"PC", 16, s.pc.toNat⟩, ⟨"I", 16, s.i.toNat⟩]

/-- The code of a cause (R242). -/
def FaultCause.code : FaultCause → Nat
  | .none => 0
  | .fetchOor => 1
  | .loadOor => 2
  | .storeOor => 3
  | .drawOor => 4
  | .keyOor => 5

/-- What the host reads on the diagnostics port (R254). -/
structure Diagnostics where
  opcode     : Word
  opcodeText : String
  /-- The word at PC, when a whole word lies there. -/
  nextWord   : Option Word
  nextText   : Option String
  registers  : List RegisterTag
  dt         : Byte
  st         : Byte
  waitKey    : Bool
  run        : RunState
  unimpl     : Bool
  faultCode  : Nat
  faultInfo  : Nat
deriving DecidableEq, Repr

/-- The word at PC, when PC + 1 < MEM_SIZE (R254). -/
def State.nextWord (s : State) : Option Word := if s.fetchFaults then none else some s.fetchWord

/-- The diagnostics read (R254). -/
def diagRead (s : State) : Diagnostics where
  opcode     := s.opcode
  opcodeText := disassemble s.opcode
  nextWord   := s.nextWord
  nextText   := s.nextWord.map disassemble
  registers  := registerSnapshot s
  dt         := s.dt
  st         := s.st
  waitKey    := s.waitKey
  run        := s.run
  unimpl     := s.unimpl
  faultCode  := s.fault.code
  faultInfo  := s.faultInfo

end Sys2Proof.Machine
end

