-- ==== Sys2Proof/WellFormed.lean ====
section
/-! DEFINITION. Well-formedness. An instruction needs no check: its operand types carry every range the
spec gives (30_encoding.md R74, R75), and no rule forbids a combination of operands (R82). What does need
a check is the choice of parameters (00_scope.md R6; 92_eei_decisions.md D1 to D4). -/

namespace Sys2Proof

/-- `LOAD_ADDR < MEM_SIZE` (D1). -/
def Config.loadAddrOk (c : Config) : Bool := decide (c.loadAddr < memSize)

/-- `FONT_IMAGE` lies inside memory. The spec leaves this open: DESIGN CHOICE, notes/assumptions/8.md. -/
def Config.fontOk (c : Config) : Bool :=
  c.fontImage.isEmpty || decide (c.fontBase + c.fontImage.length ≤ memSize)

/-- `DISP_W` and `DISP_H` are at least 1 (D3). -/
def Config.dispOk (c : Config) : Bool := decide (1 ≤ c.dispW) && decide (1 ≤ c.dispH)

/-- `ON_VAL` is nonzero (D4). -/
def Config.onValOk (c : Config) : Bool := c.onVal != 0

/-- A legal choice of the parameters. `I_MASK` and the policy parameters are legal by their types. -/
def Config.wellFormed (c : Config) : Bool :=
  c.loadAddrOk && c.fontOk && c.dispOk && c.onValOk

end Sys2Proof
end

