-- ==== Sys2Proof/Machine/Run.lean ====
section
/-! DEFINITION. Runs of a program: how one is launched, and where it ends (spec/70_reset_and_hazards.md R278,
R286). -/

namespace Sys2Proof.Machine

/-! ## Launch -/

/-- The host operations R278 allows between the load and the first tick: `start` and key events. -/
def HostOp.ofBoot : HostOp → Bool
  | .start => true
  | .keyPress _ => true
  | .keyRelease _ => true
  | .stop => false
  | .pause => false
  | .resume => false
  | .load _ => false

/-- The boot sequence of R278: power-on with the parameters `c`, the load, and what the host does then. -/
def launch (c : Config) (bytes : List Byte) (boot : List HostOp) : Result :=
  runEvents (.host (.load bytes) :: boot.map .host) (powerOn c)

/-- A launch state: one that a boot sequence under legal parameters leaves. R286 uses the term and does not
define it: DEDUCED, notes/assumptions/17.md. -/
def State.IsLaunch (s : State) : Prop :=
  ∃ c bytes boot, Config.wellFormed c = true ∧ boot.all HostOp.ofBoot = true ∧ launch c bytes boot = .next s

/-! ## The end of a run -/

/-- R286: the word at PC jumps to itself, and nothing keeps the next tick from running it. -/
def State.halted (s : State) : Bool :=
  s.fault == .none && s.run == .running && !s.waitKey && !s.fetchFaults && s.fetchWord == (0x1000 ||| s.pc)

/-- R286: the fault latch is set. -/
def State.faulted (s : State) : Bool := s.fault != .none

/-- R286: the wait flag is set and no key is pressed. It is no end of a run. -/
def State.waiting (s : State) : Bool := s.stillWaiting

/-- R286: a tick that leaves this state ends the run. -/
def State.ended (s : State) : Bool := s.halted || s.faulted

/-- What happens in a run: ticks, and key events between them. Of a run in which the host pauses or reloads
R286 says nothing: notes/assumptions/17.md. -/
inductive RunEvent where
  | tick
  | key (k : Fin 16) (pressed : Bool)
deriving DecidableEq, Repr

/-- The event of the core that a run event is. -/
def RunEvent.toEvent : RunEvent → Event
  | .tick => .tick
  | .key k true => .host (.keyPress k.val)
  | .key k false => .host (.keyRelease k.val)

/-- How far a run has come when its events are used up, or when it has ended before. -/
inductive RunEnd where
  /-- The run ended at tick number `ticks`, counted from 1, in the halted or faulted state `s`. -/
  | ended (ticks : Nat) (s : State)
  /-- No tick has ended the run; `s` is the state so far. -/
  | going (s : State)
  /-- There was no transition. No tick and no key event of a run is refused; the constructor mirrors
  `Host.Outcome`. -/
  | refused (r : Refusal)
deriving DecidableEq, Repr

/-- The run through `events` from `s`, when `ticks` ticks have gone before. -/
def runFrom (ticks : Nat) : List RunEvent → State → RunEnd
  | [], s => .going s
  | .tick :: events, s =>
    match step s with
    | .next t => if t.ended then .ended (ticks + 1) t else runFrom (ticks + 1) events t
    | .fault r => nomatch r
    | .refused r => .refused r
  | .key k b :: events, s =>
    match hostKey k.val b s with
    | .next t => runFrom ticks events t
    | .fault r => nomatch r
    | .refused r => .refused r

/-- R286: the run from `s` ends at the first tick after which the state is halted or faulted. -/
def runToEnd (events : List RunEvent) (s : State) : RunEnd := runFrom 0 events s

/-- A claim `P` about a program's result is a claim about the halted state; a faulted end refutes it, and a run
that still goes on has no result (R286). -/
def RunEnd.Result (P : State → Prop) : RunEnd → Prop
  | .ended _ s => s.halted = true ∧ P s
  | .going _ => False
  | .refused _ => False

end Sys2Proof.Machine
end

