-- ==== Sys2Proof/Safety.lean ====
section
/-! DEFINITION. The invariant of a state that the core can be in. Where a run ends, and what a claim about its result
is, stands in Machine/Run.lean (spec/70_reset_and_hazards.md R286). -/

namespace Sys2Proof.Machine

/-- The display has the shape of R32. -/
def Display.shaped (d : Display) (w h : Nat) : Prop := d.rows.length = h ∧ ∀ row ∈ d.rows, row.length = w

/-- `fault_info` says what its cause records (60_exceptions.md R242). -/
def State.faultInfoOk (s : State) : Prop :=
  match s.fault with
  | .none => s.faultInfo = 0
  | .fetchOor => memSize ≤ s.faultInfo + 1
  | .loadOor => memSize ≤ s.faultInfo
  | .storeOor => memSize ≤ s.faultInfo
  | .drawOor => s.cfg.dispW ≤ s.faultInfo % 512 ∨ s.cfg.dispH ≤ s.faultInfo / 512
  | .keyOor => 16 ≤ s.faultInfo ∧ s.faultInfo < 256

/-- The invariant every tick and every host operation keeps. -/
structure State.Inv (s : State) : Prop where
  /-- The parameters are legal (00_scope.md R6). -/
  cfgOk     : s.cfg.wellFormed = true
  /-- Memory is in canonical form, within 4096 bytes (20_memory.md R50). -/
  memOk     : s.mem.wf = true
  /-- The display has DISP_H rows of DISP_W cells (10_state.md R32). -/
  pixOk     : s.pix.shaped s.cfg.dispW s.cfg.dispH
  /-- PC never passes 0x10FE, so no write of it is ever reduced (R29). -/
  pcOk      : s.pc.toNat ≤ 0x10FE
  /-- I lies within `I_MASK` (43_index_memory.md R180). -/
  iOk       : s.i &&& IMask.toWord s.cfg.iMask = s.i
  /-- The latch's information fits its cause (60_exceptions.md R242). -/
  faultOk   : s.faultInfoOk
  /-- A report is about an unimplemented word (40_pipeline.md R113). -/
  unimplOk  : s.unimpl = true → decodeWord s.opcode = .error (.unimplemented s.opcode)

end Sys2Proof.Machine
end

