-- ==== Sys2Proof/Certificates/Slice0/Obligations.lean ====
section
/-! DEFINITION. The statements for the provers, from the numbered rules of spec/. `exec i s` is the execution of
`i` after its fetch: in `s`, PC is already the instruction's address plus 2 (40_pipeline.md R107). -/

namespace Sys2Proof.Claims

open Sys2Proof.Machine

/-! ## How a word carries an instruction: the row's match value plus each field at its place (R72, R78) -/

/-- Every word `base + 0x100 x + nn` decodes to `f x nn`. -/
def EncodesXNN (base : Nat) (f : Reg → Byte → Instr) : Prop :=
  ∀ (x : Reg) (nn : Byte) (w : Word), w.toNat = base + 0x100 * x.val + nn.toNat → decodeWord w = .ok (f x nn)

/-- Every word `base + 0x100 x + 0x10 y` decodes to `f x y`. -/
def EncodesXY (base : Nat) (f : Reg → Reg → Instr) : Prop :=
  ∀ (x y : Reg) (w : Word), w.toNat = base + 0x100 * x.val + 0x10 * y.val → decodeWord w = .ok (f x y)

/-- Every word `base + 0x100 x` decodes to `f x`. -/
def EncodesX (base : Nat) (f : Reg → Instr) : Prop :=
  ∀ (x : Reg) (w : Word), w.toNat = base + 0x100 * x.val → decodeWord w = .ok (f x)

/-- Every word `base + nnn` decodes to `f nnn`. -/
def EncodesNNN (base : Nat) (f : Addr12 → Instr) : Prop :=
  ∀ (nnn : Addr12) (w : Word), w.toNat = base + nnn.toNat → decodeWord w = .ok (f nnn)

/-- Every word `base + 0x100 x + 0x10 y + n` decodes to `f x y n`. -/
def EncodesXYN (base : Nat) (f : Reg → Reg → Fin 16 → Instr) : Prop :=
  ∀ (x y : Reg) (n : Fin 16) (w : Word), w.toNat = base + 0x100 * x.val + 0x10 * y.val + n.val →
    decodeWord w = .ok (f x y n)

/-! ## Frames -/

/-- What an instruction may change. Nothing, unless it is named. -/
structure Changes where
  regs    : List Reg := []
  stored  : Nat → Prop := fun _ => False
  pc      : Bool := false
  i       : Bool := false
  dt      : Bool := false
  st      : Bool := false
  pix     : Bool := false
  waitKey : Bool := false
  draws   : Bool := false

/-- Everything else is unchanged: each register, each byte of memory by its own read, and each other field. The
key matrix, the current opcode, the run state, the fault latch, the report and the parameters are unchanged by
every instruction that does not fault. -/
def Frame (c : Changes) (s t : State) : Prop :=
  (∀ r, r ∉ c.regs → t.V r = s.V r) ∧
  (∀ a, ¬ c.stored a → t.mem.get a = s.mem.get a) ∧
  (c.pc = false → t.pc = s.pc) ∧
  (c.i = false → t.i = s.i) ∧
  (c.dt = false → t.dt = s.dt) ∧
  (c.st = false → t.st = s.st) ∧
  (c.pix = false → t.pix = s.pix) ∧
  (c.waitKey = false → t.waitKey = s.waitKey) ∧
  (c.draws = false → t.draws = s.draws) ∧
  t.key = s.key ∧ t.opcode = s.opcode ∧ t.run = s.run ∧ t.fault = s.fault ∧ t.faultInfo = s.faultInfo ∧
  t.unimpl = s.unimpl ∧ t.cfg = s.cfg

/-- The state a faulting instruction leaves: the latch set, PC at the instruction, nothing else (R111, R241). -/
def faultOf (s : State) (c : FaultCause) (info : Nat) : State :=
  { s with fault := c, faultInfo := info, pc := s.pc - 2 }

/-- `i` completes, skips the next instruction exactly when `c` holds, and changes PC alone. -/
def SkipsWhen (i : Instr) (s : State) (c : Prop) : Prop :=
  ∃ t, exec i s = .next t ∧ (c → t.pc.toNat = (s.pc.toNat + 2) % 0x10000) ∧ (¬ c → t.pc = s.pc) ∧
    Frame { pc := true } s t

/-! ## The tick -/

/-- The next tick fetches: no fault, running, no wait or a key pressed, and a whole word at PC (R101). -/
def Ready (s : State) : Prop :=
  s.fault = .none ∧ s.run = .running ∧ (s.waitKey = true → ∃ k : Fin 16, s.key[k.val] = true) ∧
    s.pc.toNat + 1 < 4096

/-- `w` is the big-endian word at PC (20_memory.md R55). -/
def WordAt (s : State) (w : Word) : Prop :=
  w.toNat = (s.mem.get s.pc.toNat).toNat * 256 + (s.mem.get (s.pc.toNat + 1)).toNat

/-- The next tick executes `i`. -/
def Executes (s : State) (i : Instr) : Prop := Ready s ∧ ∃ w, WordAt s w ∧ decodeWord w = .ok i

/-- A timer after its decrement: one less, never below zero (R104). -/
def down (t : Byte) : Byte := BitVec.ofNat 8 (t.toNat - 1)

/-- The state in which the tick dispatches the word `w`: timers down, wait flag clear, PC past the word, the word
latched, the report clear (R104 to R108). -/
def entry (s : State) (w : Word) : State :=
  { s with dt := down s.dt, st := down s.st, waitKey := false, pc := s.pc + 2, opcode := w, unimpl := false }

/-! ## Decimal digits, sprites -/

/-- How many bytes Fx33 writes (43_index_memory.md R185). -/
def digits (c : Config) (v : Nat) : Nat :=
  if v = 0 then (if c.bcdZero = .one then 1 else 0) else if v < 10 then 1 else if v < 100 then 2 else 3

/-- `I_MASK` applied to a number (43_index_memory.md R180). -/
def masked (c : Config) (v : Nat) : Nat := if c.iMask = .full then v % 0x10000 else v % 0x1000

/-- Row `r`, column `c` of the `n`-row sprite at I is a set bit (44_display.md R203). -/
def SpriteBit (s : State) (n r c : Nat) : Bool :=
  decide (r < n) && decide (c < 8) && (s.mem.get (s.i.toNat + r)).getLsbD (7 - c)

/-- A set bit of the sprite drawn at (px0, py0) lands on (px, py), with no coordinate reduced (R204). -/
def Hits (s : State) (px0 py0 n px py : Nat) : Prop :=
  ∃ r c, SpriteBit s n r c = true ∧ px0 + c = px ∧ py0 + r = py

/-- How many set bits land on (px, py) when both coordinates wrap (R204, R205). -/
def wrapHits (s : State) (px0 py0 n px py : Nat) : Nat :=
  ((List.range n).flatMap fun r => (List.range 8).map fun c => (r, c)).countP fun p =>
    SpriteBit s n p.1 p.2 && ((px0 + p.2) % s.cfg.dispW == px) && ((py0 + p.1) % s.cfg.dispH == py)

/-- A set bit of the sprite drawn at (px0, py0) lies beyond the display (R204). -/
def Outside (s : State) (px0 py0 n r c : Nat) : Prop :=
  SpriteBit s n r c = true ∧ (s.cfg.dispW ≤ px0 + c ∨ s.cfg.dispH ≤ py0 + r)

/-- VF after a draw: 1 when a set bit was drawn, otherwise by `DRAW_VF` (R206). -/
def DrawnFlag (s t : State) (drawn : Prop) : Prop :=
  (drawn → t.V VF = 1) ∧ (¬ drawn → s.cfg.drawVf = .clear → t.V VF = 0) ∧
    (¬ drawn → s.cfg.drawVf = .keep → t.V VF = s.V VF)

end Sys2Proof.Claims

section

open Sys2Proof Sys2Proof.Machine Sys2Proof.Claims

/-! ## Encoding -/

/-- One word per format, written out digit by digit from R73, decodes to its instruction; three words that match
no row are refused by name (R77, R78, R80). A sanity statement. -/
def Obligations.WrittenWordsDecode : Prop :=
  decode [0x00, 0xE0] = .ok (.clrscr, []) ∧ decode [0x12, 0x34] = .ok (.jp 0x234, []) ∧
  decode [0x3A, 0x42] = .ok (.seImm 0xA 0x42, []) ∧ decode [0x81, 0x24] = .ok (.addReg 1 2, []) ∧
  decode [0x81, 0xAE] = .ok (.shl 1 0xA, []) ∧ decode [0x91, 0x20] = .ok (.sneReg 1 2, []) ∧
  decode [0xDE, 0xF1, 0x07] = .ok (.drw 0xE 0xF 1, [0x07]) ∧ decode [0xE2, 0xA1] = .ok (.sknp 2, []) ∧
  decode [0xF5, 0x33] = .ok (.ldB 5, []) ∧ decode [0x22, 0x00] = .error (.unimplemented 0x2200) ∧
  decode [0x51, 0x21] = .error (.unimplemented 0x5121) ∧ decode [0xF0] = .error .truncated

/-- Decoding the bytes of any instruction, whatever follows them, gives the instruction back with every operand,
and the rest (R71, R77, R78). -/
def Obligations.DecodeEncodeRoundTrip : Prop :=
  ∀ (i : Instr) (rest : List Byte), decode (encodeBytes i ++ rest) = .ok (i, rest)

/-- Each instruction has one word: bytes that decode to an instruction are its encoding and the rest (R79: no
instruction but the y field of 8xy6 and 8xyE has a don't-care bit, and the model keeps that field). -/
def Obligations.EncodeDecodeRoundTrip : Prop :=
  ∀ (bytes rest : List Byte) (i : Instr), decode bytes = .ok (i, rest) → bytes = encodeBytes i ++ rest

/-- A word decodes exactly when some row of the opcode map selects it, no word is selected by two rows, and every
other word is refused as unimplemented under its own name (R76 to R78, R80). -/
def Obligations.OpcodeMapDecidesDecoding : Prop :=
  (∀ w : Word, (∃ i, decodeWord w = .ok i) ↔ ∃ r ∈ opcodeMap, w &&& r.mask = r.bits) ∧
  opcodeMap.Pairwise (fun r q => ∀ w : Word, ¬ (w &&& r.mask = r.bits ∧ w &&& q.mask = q.bits)) ∧
  (∀ (w : Word) (e : DecodeError), decodeWord w = .error e → e = .unimplemented w)

/-! ## The tick -/

/-- When the bytes at PC decode to `i`, one step is `exec i` in the state the earlier stages leave, followed by
the wait roll-back (R101, R104 to R110). -/
def Obligations.StepRunsDecodedInstruction : Prop :=
  ∀ (s : State) (i : Instr) (w : Word), Ready s → WordAt s w →
    decode [s.mem.get s.pc.toNat, s.mem.get (s.pc.toNat + 1)] = .ok (i, []) →
    step s = match exec i (entry s w) with
      | .next t => .next (if t.waitKey then { t with pc := t.pc - 2 } else t)
      | .fault r => .fault r
      | .refused r => .refused r

/-- R112: a word that no row matches advances PC, latches the word and reports it, and does nothing else. R81:
0nnn other than 00E0, 00EE among them, and 2nnn are such words. -/
def Obligations.UnimplementedWordIsReportedNoOp : Prop :=
  (∀ (s : State) (w : Word), Ready s → WordAt s w → (∀ i, decodeWord w ≠ .ok i) →
    step s = .next { entry s w with unimpl := true }) ∧
  (∀ (w : Word) (i : Instr), w.toNat < 0x1000 → w ≠ 0x00E0 → decodeWord w ≠ .ok i) ∧
  (∀ (w : Word) (i : Instr), 0x2000 ≤ w.toNat → w.toNat < 0x3000 → decodeWord w ≠ .ok i)

/-- R102 (the spec's decision D15) and R103 (its decision D12): a tick with the fault latch set changes nothing,
and so does a tick while paused, but for the timers under `PAUSED_TICK = timers_only`. -/
def Obligations.FaultedOrPausedTickIsIdle : Prop :=
  ∀ s : State,
    (s.fault ≠ .none → step s = .next s) ∧
    (s.fault = .none → s.run = .paused → s.cfg.pausedTick = .frozen → step s = .next s) ∧
    (s.fault = .none → s.run = .paused → s.cfg.pausedTick = .timersOnly →
      step s = .next { s with dt := down s.dt, st := down s.st })

/-- R104: every running tick, waiting or not, takes each timer that is not zero down by one and leaves a zero
timer zero; only an Fx15 (Fx18) executed in the same tick then overwrites DT (ST), with Vx undecremented; an Fx07 in
the same tick reads the decremented value. -/
def Obligations.TimersCountDownOncePerTick : Prop :=
  ∀ s : State, s.fault = .none → s.run = .running → ∃ t, step s = .next t ∧
    ((∀ x, ¬ Executes s (.ldDtVx x)) → t.dt.toNat = s.dt.toNat - 1) ∧
    (∀ x, Executes s (.ldDtVx x) → t.dt = s.V x) ∧
    ((∀ x, ¬ Executes s (.ldStVx x)) → t.st.toNat = s.st.toNat - 1) ∧
    (∀ x, Executes s (.ldStVx x) → t.st = s.V x) ∧
    (∀ x, Executes s (.ldVxDt x) → (t.V x).toNat = s.dt.toNat - 1)

/-- R281 and property S10: over `n` running ticks none of which executes Fx15 or meets a fault, DT falls by `n`,
stopping at 0. -/
def Obligations.DelayTimerRunsOut : Prop :=
  ∀ (n : Nat) (s t : State), core.run n s = .next t →
    (∀ k, k < n → ∃ u, core.run k s = .next u ∧ u.fault = .none ∧ u.run = .running ∧
      ∀ x, ¬ Executes u (.ldDtVx x)) →
    t.dt.toNat = s.dt.toNat - n

/-- R101 and R106 (the spec's decisions D5 and D15): a fetch with PC + 1 >= MEM_SIZE latches FETCH_OOR with PC as its
information; PC, opcode, report and registers stay, and the timer stage stands. That the wait flag is left clear, also
when this tick ended a wait, is the model's reading of the order of the stages: log entry 11 (DEDUCED). -/
def Obligations.FetchBeyondMemoryFaults : Prop :=
  ∀ s : State, s.fault = .none → s.run = .running →
    (s.waitKey = true → ∃ k : Fin 16, s.key[k.val] = true) → 4096 ≤ s.pc.toNat + 1 →
    step s = .next { s with dt := down s.dt, st := down s.st, waitKey := false,
                            fault := .fetchOor, faultInfo := s.pc.toNat }

/-! ## Control flow -/

/-- R132: 1nnn sets PC to nnn. -/
def Obligations.JumpGoesToAddress : Prop :=
  EncodesNNN 0x1000 .jp ∧
  ∀ (nnn : Addr12) (s : State), ∃ t, exec (.jp nnn) s = .next t ∧ t.pc.toNat = nnn.toNat ∧
    Frame { pc := true } s t

/-- R133 without its remark on the next fetch (the spec's decision D5): Bnnn sets PC to V0 + nnn, unmasked. -/
def Obligations.JumpPlusV0GoesToSum : Prop :=
  EncodesNNN 0xB000 .jpV0 ∧
  ∀ (nnn : Addr12) (s : State), ∃ t, exec (.jpV0 nnn) s = .next t ∧
    t.pc.toNat = (s.V V0).toNat + nnn.toNat ∧ Frame { pc := true } s t

/-- R134 to R137: the four comparing skips add 2 to PC exactly when their condition holds. -/
def Obligations.ComparingSkipsSkipOne : Prop :=
  EncodesXNN 0x3000 .seImm ∧ EncodesXNN 0x4000 .sneImm ∧ EncodesXY 0x5000 .seReg ∧ EncodesXY 0x9000 .sneReg ∧
  ∀ (x y : Reg) (nn : Byte) (s : State),
    SkipsWhen (.seImm x nn) s (s.V x = nn) ∧ SkipsWhen (.sneImm x nn) s (s.V x ≠ nn) ∧
    SkipsWhen (.seReg x y) s (s.V x = s.V y) ∧ SkipsWhen (.sneReg x y) s (s.V x ≠ s.V y)

/-! ## Registers and ALU -/

/-- R152, R153, R154: the loads of a register and the flagless add; only Vx changes. -/
def Obligations.LoadsAndFlaglessAdd : Prop :=
  EncodesXNN 0x6000 .ldImm ∧ EncodesXNN 0x7000 .addImm ∧ EncodesXY 0x8000 .ldReg ∧
  ∀ (x y : Reg) (nn : Byte) (s : State),
    (∃ t, exec (.ldImm x nn) s = .next t ∧ t.V x = nn ∧ Frame { regs := [x] } s t) ∧
    (∃ t, exec (.addImm x nn) s = .next t ∧ (t.V x).toNat = ((s.V x).toNat + nn.toNat) % 256 ∧
      Frame { regs := [x] } s t) ∧
    (∃ t, exec (.ldReg x y) s = .next t ∧ t.V x = s.V y ∧ Frame { regs := [x] } s t)

/-- R155, R156, R157 with the spec's decision D19 that VF is left alone: bitwise or, and, xor into Vx. -/
def Obligations.LogicActsBitwise : Prop :=
  EncodesXY 0x8001 .orReg ∧ EncodesXY 0x8002 .andReg ∧ EncodesXY 0x8003 .xorReg ∧
  ∀ (x y : Reg) (s : State),
    (∃ t, exec (.orReg x y) s = .next t ∧
      (∀ k, k < 8 → (t.V x).getLsbD k = ((s.V x).getLsbD k || (s.V y).getLsbD k)) ∧ Frame { regs := [x] } s t) ∧
    (∃ t, exec (.andReg x y) s = .next t ∧
      (∀ k, k < 8 → (t.V x).getLsbD k = ((s.V x).getLsbD k && (s.V y).getLsbD k)) ∧ Frame { regs := [x] } s t) ∧
    (∃ t, exec (.xorReg x y) s = .next t ∧
      (∀ k, k < 8 → (t.V x).getLsbD k = ((s.V x).getLsbD k != (s.V y).getLsbD k)) ∧ Frame { regs := [x] } s t)

/-- R158: 8xy4. For x = F the carry, written last, is what VF holds. -/
def Obligations.AddSetsSumAndCarry : Prop :=
  EncodesXY 0x8004 .addReg ∧
  ∀ (x y : Reg) (s : State), ∃ t, exec (.addReg x y) s = .next t ∧
    (t.V VF).toNat = (if (s.V x).toNat + (s.V y).toNat > 255 then 1 else 0) ∧
    (x ≠ VF → (t.V x).toNat = ((s.V x).toNat + (s.V y).toNat) % 256) ∧ Frame { regs := [x, VF] } s t

/-- R159: 8xy5. The comparison is of the operands, and VF is 0 exactly on a borrow. -/
def Obligations.SubtractSetsDifferenceAndNotBorrow : Prop :=
  EncodesXY 0x8005 .subReg ∧
  ∀ (x y : Reg) (s : State), ∃ t, exec (.subReg x y) s = .next t ∧
    (t.V VF).toNat = (if (s.V x).toNat < (s.V y).toNat then 0 else 1) ∧
    (x ≠ VF → ((t.V x).toNat : Int) = ((s.V x).toNat - (s.V y).toNat : Int) % 256) ∧
    Frame { regs := [x, VF] } s t

/-- R162 with the spec's decision D19 on its operands: 8xy7, the reversed subtraction. -/
def Obligations.ReverseSubtractSetsDifferenceAndNotBorrow : Prop :=
  EncodesXY 0x8007 .subn ∧
  ∀ (x y : Reg) (s : State), ∃ t, exec (.subn x y) s = .next t ∧
    (t.V VF).toNat = (if (s.V x).toNat ≤ (s.V y).toNat then 1 else 0) ∧
    (x ≠ VF → ((t.V x).toNat : Int) = ((s.V y).toNat - (s.V x).toNat : Int) % 256) ∧
    Frame { regs := [x, VF] } s t

/-- R160: 8xy6 for x other than F; the y field has no effect. The form x = F is ShiftOfVFFollowsParameter. -/
def Obligations.ShiftRightHalves : Prop :=
  EncodesXY 0x8006 .shr ∧
  ∀ (x y : Reg) (s : State), x ≠ VF → ∃ t, exec (.shr x y) s = .next t ∧
    (t.V x).toNat = (s.V x).toNat / 2 ∧ (t.V VF).toNat = (s.V x).toNat % 2 ∧ Frame { regs := [x, VF] } s t ∧
    ∀ y' : Reg, exec (.shr x y') s = .next t

/-- R163: 8xyE for x other than F; the y field has no effect. The form x = F is ShiftOfVFFollowsParameter. -/
def Obligations.ShiftLeftDoubles : Prop :=
  EncodesXY 0x800E .shl ∧
  ∀ (x y : Reg) (s : State), x ≠ VF → ∃ t, exec (.shl x y) s = .next t ∧
    (t.V x).toNat = (s.V x).toNat * 2 % 256 ∧ (t.V VF).toNat = (if 128 ≤ (s.V x).toNat then 1 else 0) ∧
    Frame { regs := [x, VF] } s t ∧ ∀ y' : Reg, exec (.shl x y') s = .next t

/-- R161 and R164 (the spec's decision D9): 8Fy6 and 8FyE under both values of `SHIFT_VF_DEST`. -/
def Obligations.ShiftOfVFFollowsParameter : Prop :=
  ∀ (y : Reg) (s : State),
    (∃ t, exec (.shr VF y) s = .next t ∧ Frame { regs := [VF] } s t ∧
      (s.cfg.shiftVfDest = .prestate → (t.V VF).toNat = (s.V VF).toNat / 2) ∧
      (s.cfg.shiftVfDest = .sequential → t.V VF = 0)) ∧
    (∃ t, exec (.shl VF y) s = .next t ∧ Frame { regs := [VF] } s t ∧
      (s.cfg.shiftVfDest = .prestate → (t.V VF).toNat = (s.V VF).toNat * 2 % 256) ∧
      (s.cfg.shiftVfDest = .sequential → (t.V VF).toNat = if 128 ≤ (s.V VF).toNat then 2 else 0))

/-- R165 with the range of R166 (the spec's decision D27): Cxnn loads a byte of 0..nn and no byte of that range is
shut out. That the draw is a free value indexed by the counter `draws` is the model's choice, log entry 3. -/
def Obligations.RandomByteIsWithinBound : Prop :=
  EncodesXNN 0xC000 .rnd ∧
  (∀ (x : Reg) (nn : Byte) (s : State), ∃ t, exec (.rnd x nn) s = .next t ∧ (t.V x).toNat ≤ nn.toNat ∧
    t.V x = draw8 (Config.freeByte s.draws) nn ∧ t.draws = s.draws + 1 ∧
    Frame { regs := [x], draws := true } s t) ∧
  (∀ r nn : Byte, r.toNat ≤ nn.toNat → ∃ raw, draw8 raw nn = r)

/-! ## Index register and memory -/

/-- R181: Annn sets I to nnn, under either `I_MASK`. -/
def Obligations.LoadIndexSetsAddress : Prop :=
  EncodesNNN 0xA000 .ldI ∧
  ∀ (nnn : Addr12) (s : State), ∃ t, exec (.ldI nnn) s = .next t ∧ t.i.toNat = nnn.toNat ∧
    Frame { i := true } s t

/-- R182 and R183 (the spec's decisions D2, D10, D19, D29): Fx1E adds Vx to I, Fx29 points I at the glyph of the
whole Vx; both mod 2^16 under `I_MASK`, VF untouched. -/
def Obligations.IndexAddAndFontAddress : Prop :=
  EncodesX 0xF01E .addI ∧ EncodesX 0xF029 .ldF ∧
  ∀ (x : Reg) (s : State),
    (∃ t, exec (.addI x) s = .next t ∧ t.i.toNat = masked s.cfg (s.i.toNat + (s.V x).toNat) ∧
      Frame { i := true } s t) ∧
    (∃ t, exec (.ldF x) s = .next t ∧ t.i.toNat = masked s.cfg (s.cfg.fontBase + 5 * (s.V x).toNat) ∧
      Frame { i := true } s t)

/-- R184 and R185 (the spec's decisions D2, D5, D8, D10, D15, D29): Fx33 stores the decimal digits of Vx from I up, least
significant first, as many as R185 says, then points I at the glyph of Vx; when a byte lies at or above MEM_SIZE it
only latches STORE_OOR with the lowest such address. The latch is taken as a next state: log entry 4 (DEDUCED).
Memory is assumed canonical, which every step keeps (StepKeepsInvariant). -/
def Obligations.BcdStoresDigitsAndRepointsI : Prop :=
  EncodesX 0xF033 .ldB ∧
  ∀ (x : Reg) (s : State), s.mem.wf = true →
    let v := (s.V x).toNat
    let k := digits s.cfg v
    (k = 0 ∨ s.i.toNat + k ≤ 4096 → ∃ t, exec (.ldB x) s = .next t ∧
      (0 < k → (t.mem.get s.i.toNat).toNat = v % 10) ∧
      (1 < k → (t.mem.get (s.i.toNat + 1)).toNat = v / 10 % 10) ∧
      (2 < k → (t.mem.get (s.i.toNat + 2)).toNat = v / 100) ∧
      t.i.toNat = masked s.cfg (s.cfg.fontBase + 5 * v) ∧
      Frame { i := true, stored := fun a => s.i.toNat ≤ a ∧ a < s.i.toNat + k } s t) ∧
    (k ≠ 0 → 4096 < s.i.toNat + k →
      exec (.ldB x) s = .next (faultOf s .storeOor (max s.i.toNat 4096)))

/-- R186 (the spec's decisions D5 and D30): Fx55 stores V0 to Vx from I up and leaves I alone. -/
def Obligations.RegisterDumpStoresV0ToVx : Prop :=
  EncodesX 0xF055 .storeRegs ∧
  ∀ (x : Reg) (s : State), s.mem.wf = true → s.i.toNat + x.val < 4096 →
    ∃ t, exec (.storeRegs x) s = .next t ∧
      (∀ r : Reg, r.val ≤ x.val → t.mem.get (s.i.toNat + r.val) = s.V r) ∧
      Frame { stored := fun a => s.i.toNat ≤ a ∧ a ≤ s.i.toNat + x.val } s t

/-- R187 (the spec's decisions D5 and D30): Fx65 loads V0 to Vx from I up; the registers above and I stay. -/
def Obligations.RegisterLoadReadsV0ToVx : Prop :=
  EncodesX 0xF065 .loadRegs ∧
  ∀ (x : Reg) (s : State), s.i.toNat + x.val < 4096 →
    ∃ t, exec (.loadRegs x) s = .next t ∧
      (∀ r : Reg, r.val ≤ x.val → t.V r = s.mem.get (s.i.toNat + r.val)) ∧
      Frame { regs := (List.finRange 16).filter fun r => decide (r.val ≤ x.val) } s t

/-- R186, R187, R111, R241 (the spec's decisions D5 and D15): Fx55 and Fx65 that reach MEM_SIZE write nothing and
latch STORE_OOR or LOAD_OOR with the lowest address out of range. -/
def Obligations.RegisterDumpAndLoadFaultWhole : Prop :=
  ∀ (x : Reg) (s : State), 4096 ≤ s.i.toNat + x.val →
    exec (.storeRegs x) s = .next (faultOf s .storeOor (max s.i.toNat 4096)) ∧
    exec (.loadRegs x) s = .next (faultOf s .loadOor (max s.i.toNat 4096))

/-- R188: after Fx55, an Fx65 with the same x and I in any state with that memory gives V0 to Vx back. -/
def Obligations.DumpThenLoadRestores : Prop :=
  ∀ (x : Reg) (s t u : State), s.mem.wf = true → s.i.toNat + x.val < 4096 →
    exec (.storeRegs x) s = .next t → u.mem = t.mem → u.i = t.i →
    ∃ w, exec (.loadRegs x) u = .next w ∧ ∀ r : Reg, r.val ≤ x.val → w.V r = s.V r

/-- R52, R53, R63 (the spec's decision D5): over canonical memory a write gives back the byte written, leaves every
other byte, and keeps the form; two memories in canonical form that read alike are equal. -/
def Obligations.MemoryIsReadAfterWrite : Prop :=
  ∀ (m : Memory) (a : Nat) (b : Byte), m.wf = true → a < 4096 →
    (m.set a b).wf = true ∧ (∀ c, (m.set a b).get c = if c = a then b else m.get c) ∧
    ∀ m' : Memory, m'.wf = true → (∀ c, m'.get c = m.get c) → m' = m

/-- R67 and R283: the bytes an Fx55 stores are what the next fetch there reads. -/
def Obligations.StoredBytesAreFetched : Prop :=
  ∀ (x : Reg) (s t u : State), s.mem.wf = true → s.i.toNat + x.val < 4096 → 1 ≤ x.val →
    exec (.storeRegs x) s = .next t → u.mem = t.mem → u.pc = s.i → Ready u →
    ∃ w, step u = .next w ∧ w.opcode.toNat = (s.V 0).toNat * 256 + (s.V 1).toNat

/-! ## Display -/

/-- R201: 00E0 leaves every cell off, so that the read port gives OFF_VAL at every byte. -/
def Obligations.ClearTurnsEveryCellOff : Prop :=
  decodeWord 0x00E0 = .ok .clrscr ∧
  ∀ s : State, ∃ t, exec .clrscr s = .next t ∧ (∀ px py, t.pix.cell px py = false) ∧
    displayRead t = (s.cfg.dispW, s.cfg.dispH, List.replicate (s.cfg.dispW * s.cfg.dispH) 0x00) ∧
    Frame { pix := true } s t

/-- R202 to R207 under `DRAW_EDGE = fault` with every set bit inside, or `clip` (the spec's decisions D6, D7, D31):
each cell a set bit hits flips, no other does, and VF tells whether one was drawn. -/
def Obligations.DrawXorsSprite : Prop :=
  EncodesXYN 0xD000 .drw ∧
  ∀ (x y : Reg) (n : Fin 16) (s : State), s.Inv →
    n.val = 0 ∨ s.i.toNat + n.val ≤ 4096 →
    s.cfg.drawEdge = .clip ∨
      (s.cfg.drawEdge = .fault ∧ ∀ r c, ¬ Outside s (s.V x).toNat (s.V y).toNat n.val r c) →
    ∃ t, exec (.drw x y n) s = .next t ∧
      (∀ px py, px < s.cfg.dispW → py < s.cfg.dispH →
        (Hits s (s.V x).toNat (s.V y).toNat n.val px py → t.pix.cell px py = !(s.pix.cell px py)) ∧
        (¬ Hits s (s.V x).toNat (s.V y).toNat n.val px py → t.pix.cell px py = s.pix.cell px py)) ∧
      DrawnFlag s t (∃ px py, px < s.cfg.dispW ∧ py < s.cfg.dispH ∧
        Hits s (s.V x).toNat (s.V y).toNat n.val px py) ∧
      t.pix.shaped s.cfg.dispW s.cfg.dispH ∧ Frame { regs := [VF], pix := true } s t

/-- R204 to R206 under `DRAW_EDGE = wrap` (the spec's decision D6): each set bit flips the cell it wraps to, one
after the other, so a cell changes when an odd number of them land on it. -/
def Obligations.DrawWrapsAroundEdges : Prop :=
  ∀ (x y : Reg) (n : Fin 16) (s : State), s.Inv → s.cfg.drawEdge = .wrap →
    n.val = 0 ∨ s.i.toNat + n.val ≤ 4096 →
    ∃ t, exec (.drw x y n) s = .next t ∧
      (∀ px py, px < s.cfg.dispW → py < s.cfg.dispH → t.pix.cell px py =
        (s.pix.cell px py != decide (wrapHits s (s.V x).toNat (s.V y).toNat n.val px py % 2 = 1))) ∧
      DrawnFlag s t (∃ r c, SpriteBit s n.val r c = true) ∧
      t.pix.shaped s.cfg.dispW s.cfg.dispH ∧ Frame { regs := [VF], pix := true } s t

/-- R202, R204, R245 (the spec's decisions D5, D6 and D15): a draw whose rows reach MEM_SIZE latches LOAD_OOR; otherwise
under `DRAW_EDGE = fault` one with a set bit outside latches DRAW_OOR with the first such bit, rows before
columns. Display and VF stay. -/
def Obligations.DrawFaultsWhole : Prop :=
  ∀ (x y : Reg) (n : Fin 16) (s : State),
    (n.val ≠ 0 → 4096 < s.i.toNat + n.val →
      exec (.drw x y n) s = .next (faultOf s .loadOor (max s.i.toNat 4096))) ∧
    (n.val = 0 ∨ s.i.toNat + n.val ≤ 4096 → s.cfg.drawEdge = .fault →
      ∀ r c, Outside s (s.V x).toNat (s.V y).toNat n.val r c →
        (∀ r' c', Outside s (s.V x).toNat (s.V y).toNat n.val r' c' → r < r' ∨ (r = r' ∧ c ≤ c')) →
        exec (.drw x y n) s =
          .next (faultOf s .drawOor ((s.V x).toNat + c + 512 * ((s.V y).toNat + r))))

/-- R208: a draw that does not fault, repeated at once with x and y other than F, completes again and gives the
display back; when a set bit lies on the display before any wrapping, both draws set VF (for a bit that only wraps onto
a cell, VF is in DrawWrapsAroundEdges). -/
def Obligations.DrawingTwiceRestoresDisplay : Prop :=
  ∀ (x y : Reg) (n : Fin 16) (s t : State), s.Inv → s.fault = .none → x ≠ VF → y ≠ VF →
    exec (.drw x y n) s = .next t → t.fault = .none →
    ∃ u, exec (.drw x y n) t = .next u ∧ u.pix = s.pix ∧
      (∀ px py, px < s.cfg.dispW → py < s.cfg.dispH → Hits s (s.V x).toNat (s.V y).toNat n.val px py →
        t.V VF = 1 ∧ u.V VF = 1)

/-- R33 and R253 (the spec's decisions D4 and D26): the read port gives DISP_W * DISP_H bytes, byte
`py * DISP_W + px` being ON_VAL or 0 by the cell (px, py). -/
def Obligations.DisplayPortIsRowMajor : Prop :=
  ∀ s : State, s.pix.shaped s.cfg.dispW s.cfg.dispH →
    (displayRead s).1 = s.cfg.dispW ∧ (displayRead s).2.1 = s.cfg.dispH ∧
    (displayRead s).2.2.length = s.cfg.dispW * s.cfg.dispH ∧
    ∀ px py, px < s.cfg.dispW → py < s.cfg.dispH →
      (displayRead s).2.2[py * s.cfg.dispW + px]? = some (if s.pix.cell px py then s.cfg.onVal else 0)

/-! ## Timers and keys -/

/-- R220, R221, R222 (for Vx >= 16 the spec's decisions D11 and D15): the key skips read the entry Vx names; for
Vx >= 16 they latch KEY_OOR or take the key as not pressed, by `KEY_OOR`. The latch is taken as a next state: log
entry 4 (DEDUCED). -/
def Obligations.KeySkipsReadTheNamedKey : Prop :=
  EncodesX 0xE09E .skp ∧ EncodesX 0xE0A1 .sknp ∧
  ∀ (x : Reg) (s : State),
    (∀ k : Fin 16, (s.V x).toNat = k.val →
      SkipsWhen (.skp x) s (s.key[k.val] = true) ∧ SkipsWhen (.sknp x) s (s.key[k.val] = false)) ∧
    (16 ≤ (s.V x).toNat → s.cfg.keyOor = .notPressed →
      SkipsWhen (.skp x) s False ∧ SkipsWhen (.sknp x) s True) ∧
    (16 ≤ (s.V x).toNat → s.cfg.keyOor = .fault →
      exec (.skp x) s = .next (faultOf s .keyOor (s.V x).toNat) ∧
      exec (.sknp x) s = .next (faultOf s .keyOor (s.V x).toNat))

/-- R223, R226, R227: Fx07 reads DT after the tick's decrement; Fx15 and Fx18 set a timer to Vx, which that tick
does not decrement. -/
def Obligations.TimerInstructionsReadAndSet : Prop :=
  EncodesX 0xF007 .ldVxDt ∧ EncodesX 0xF015 .ldDtVx ∧ EncodesX 0xF018 .ldStVx ∧
  ∀ (x : Reg) (s : State),
    (∃ t, exec (.ldVxDt x) s = .next t ∧ t.V x = s.dt ∧ Frame { regs := [x] } s t) ∧
    (∃ t, exec (.ldDtVx x) s = .next t ∧ t.dt = s.V x ∧ Frame { dt := true } s t) ∧
    (∃ t, exec (.ldStVx x) s = .next t ∧ t.st = s.V x ∧ Frame { st := true } s t) ∧
    (Executes s (.ldVxDt x) → ∃ t, step s = .next t ∧ (t.V x).toNat = s.dt.toNat - 1 ∧ t.dt = t.V x) ∧
    (Executes s (.ldDtVx x) → ∃ t, step s = .next t ∧ t.dt = s.V x ∧ t.pc = s.pc + 2) ∧
    (Executes s (.ldStVx x) → ∃ t, step s = .next t ∧ t.st = s.V x ∧ t.pc = s.pc + 2)

/-- R224 and R228: Fx0A with keys pressed loads the lowest of them and goes on; with none it arms the wait, and
the tick leaves PC at it. -/
def Obligations.WaitForKeyTakesLowestOrArms : Prop :=
  EncodesX 0xF00A .ldVxK ∧
  ∀ (x : Reg) (s : State),
    (∀ k : Fin 16, s.key[k.val] = true → (∀ j : Fin 16, s.key[j.val] = true → k ≤ j) →
      (∃ t, exec (.ldVxK x) s = .next t ∧ (t.V x).toNat = k.val ∧ Frame { regs := [x] } s t) ∧
      (Executes s (.ldVxK x) → ∃ t, step s = .next t ∧ (t.V x).toNat = k.val ∧ t.waitKey = false ∧
        t.pc = s.pc + 2)) ∧
    ((∀ j : Fin 16, s.key[j.val] = false) →
      (∃ t, exec (.ldVxK x) s = .next t ∧ t.waitKey = true ∧ Frame { waitKey := true } s t) ∧
      (Executes s (.ldVxK x) → ∃ t, step s = .next t ∧ t.waitKey = true ∧ t.pc = s.pc ∧ t.v = s.v))

/-- R225 and R284: while the core waits and no key is pressed, `n` ticks only run the timers down; at the first
tick with a key pressed the word at PC is executed with the wait flag clear, an Fx0A taking the lowest key. -/
def Obligations.WaitingLastsUntilAKey : Prop :=
  ∀ (n : Nat) (s : State), s.fault = .none → s.run = .running → s.waitKey = true →
    ((∀ j : Fin 16, s.key[j.val] = false) →
      core.run n s = .next { s with dt := BitVec.ofNat 8 (s.dt.toNat - n), st := BitVec.ofNat 8 (s.st.toNat - n) }) ∧
    (∀ (x : Reg) (k : Fin 16), s.key[k.val] = true → (∀ j : Fin 16, s.key[j.val] = true → k ≤ j) →
      Executes s (.ldVxK x) →
      ∃ t, step s = .next t ∧ t.waitKey = false ∧ (t.V x).toNat = k.val ∧ t.pc = s.pc + 2 ∧
        t.dt.toNat = s.dt.toNat - 1)

/-! ## Faults -/

/-- R111, R241, R243 (the spec's decision D15): a tick that latches a fault leaves the state from before it, but for
the timer stage, the latch, the released wait flag and, when the word was fetched, the latched word and the
cleared report. The clear wait flag and the clear report of a faulted core are the model's reading of the order of the
stages: log entries 11 and 12 (DEDUCED). -/
def Obligations.FaultsArePrecise : Prop :=
  ∀ s t : State, s.fault = .none → step s = .next t → t.fault ≠ .none →
    s.run = .running ∧
    t = { s with dt := down s.dt, st := down s.st, waitKey := false, fault := t.fault, faultInfo := t.faultInfo,
                 opcode := t.opcode, unimpl := t.unimpl } ∧
    (t.fault = .fetchOor → 4096 ≤ s.pc.toNat + 1 ∧ t.faultInfo = s.pc.toNat ∧ t.opcode = s.opcode ∧
      t.unimpl = s.unimpl) ∧
    (t.fault ≠ .fetchOor → s.pc.toNat + 1 < 4096 ∧ WordAt s t.opcode ∧ t.unimpl = false)

/-- R242 (the spec's decisions D5, D6, D8, D11 and D15): which instruction can latch which cause, and on which
condition; no other instruction and no other condition latches one. -/
def Obligations.OnlyNamedInstructionsFault : Prop :=
  ∀ (i : Instr) (s t : State), s.fault = .none → exec i s = .next t → t.fault ≠ .none →
    (∃ x, i = .loadRegs x ∧ t.fault = .loadOor ∧ 4096 ≤ s.i.toNat + x.val) ∨
    (∃ x y n, i = .drw x y n ∧ t.fault = .loadOor ∧ n.val ≠ 0 ∧ 4096 < s.i.toNat + n.val) ∨
    (∃ x, i = .storeRegs x ∧ t.fault = .storeOor ∧ 4096 ≤ s.i.toNat + x.val) ∨
    (∃ x, i = .ldB x ∧ t.fault = .storeOor ∧ digits s.cfg (s.V x).toNat ≠ 0 ∧
      4096 < s.i.toNat + digits s.cfg (s.V x).toNat) ∨
    (∃ x y n, i = .drw x y n ∧ t.fault = .drawOor ∧ s.cfg.drawEdge = .fault ∧
      ∃ r c, Outside s (s.V x).toNat (s.V y).toNat n.val r c) ∨
    (∃ x, (i = .skp x ∨ i = .sknp x) ∧ t.fault = .keyOor ∧ s.cfg.keyOor = .fault ∧ 16 ≤ (s.V x).toNat)

/-- R244 (the spec's decision D15): no sequence of ticks and host operations clears or changes the latch, and none
executes an instruction: registers, I, timers, display and the current opcode stay. -/
def Obligations.FaultLatchIsSticky : Prop :=
  ∀ (events : List Event) (s t : State), s.fault ≠ .none → runEvents events s = .next t →
    t.fault = s.fault ∧ t.faultInfo = s.faultInfo ∧ t.v = s.v ∧ t.i = s.i ∧ t.dt = s.dt ∧ t.st = s.st ∧
    t.pix = s.pix ∧ t.opcode = s.opcode ∧ t.unimpl = s.unimpl ∧ t.waitKey = s.waitKey

/-- R101 and R82: every tick of every state, and every instruction in every state, answers a next state. -/
def Obligations.EveryTickAnswersNext : Prop :=
  (∀ s : State, ∃ t, step s = .next t) ∧ (∀ (i : Instr) (s : State), ∃ t, exec i s = .next t)

/-! ## Invariants -/

/-- Every tick keeps `State.Inv`: legal parameters, canonical memory, the display's shape, PC at most 0x10FE, I
within its mask, a latch whose information fits its cause, reports only of unimplemented words. -/
def Obligations.StepKeepsInvariant : Prop :=
  ∀ s t : State, s.Inv → step s = .next t → t.Inv

/-- Power-on with legal parameters gives a state that meets `State.Inv`, State.reset among them. -/
def Obligations.PowerOnMeetsInvariant : Prop :=
  (∀ c : Config, c.wellFormed = true → (powerOn c).Inv) ∧ State.reset.Inv

/-- Every host operation keeps `State.Inv`. -/
def Obligations.HostOperationsKeepInvariant : Prop :=
  ∀ (o : HostOp) (s t : State), s.Inv → hostOp o s = .next t → t.Inv

/-- Whatever the host does between ticks, every state reached from power-on meets `State.Inv`. -/
def Obligations.ReachableStatesMeetInvariant : Prop :=
  ∀ (c : Config) (events : List Event) (t : State), c.wellFormed = true →
    runEvents events (powerOn c) = .next t → t.Inv

/-- R34, R37, R40: no instruction writes the key matrix, the run state, the current opcode or the report, and no
tick changes the key matrix, the run state or the parameters. -/
def Obligations.KeysRunStateAndParametersAreTheHosts : Prop :=
  (∀ (i : Instr) (s t : State), exec i s = .next t →
    t.key = s.key ∧ t.run = s.run ∧ t.opcode = s.opcode ∧ t.unimpl = s.unimpl ∧ t.cfg = s.cfg) ∧
  (∀ s t : State, step s = .next t → t.key = s.key ∧ t.run = s.run ∧ t.cfg = s.cfg)

/-- R31, R36, R43: no program can observe the sound timer, the current opcode or the report. Two states that differ
in these alone take steps to states that differ in these alone. -/
def Obligations.SoundTimerAndReportsAreUnobservable : Prop :=
  ∀ (s t : State) (b : Byte) (o : Word) (u : Bool), step s = .next t →
    ∃ t', step { s with st := b, opcode := o, unimpl := u } = .next t' ∧
      t' = { t with st := t'.st, opcode := t'.opcode, unimpl := t'.unimpl }

/-! ## Reset and the host -/

/-- R42, R61, R270 (with the spec's decisions D2, D13, D15, D20 for the font, the run state, the latch and the
report): what power-on leaves in each field. `draws` is the model's own field and is left out. -/
def Obligations.PowerOnValues : Prop :=
  ∀ c : Config, c.wellFormed = true →
    (∀ r, (powerOn c).V r = 0) ∧ (powerOn c).i = 0 ∧ (powerOn c).pc = 0 ∧ (powerOn c).dt = 0 ∧ (powerOn c).st = 0 ∧
    (∀ px py, (powerOn c).pix.cell px py = false) ∧ (∀ k : Fin 16, (powerOn c).key[k.val] = false) ∧
    (powerOn c).waitKey = false ∧ (powerOn c).opcode = 0 ∧ (powerOn c).run = .running ∧
    (powerOn c).fault = .none ∧ (powerOn c).faultInfo = 0 ∧ (powerOn c).unimpl = false ∧ (powerOn c).cfg = c ∧
    (∀ j, j < c.fontImage.length → (powerOn c).mem.get (c.fontBase + j) = c.fontImage.getD j 0) ∧
    (∀ a, a < c.fontBase ∨ c.fontBase + c.fontImage.length ≤ a → (powerOn c).mem.get a = 0) ∧
    powerOn Config.specDefault = State.reset

/-- R103, R115, R116, R260 (R103 is the spec's decision D12): pausing or stopping, any number of ticks, and resuming
gives the state back running, but for timers that count under `PAUSED_TICK = timers_only`. -/
def Obligations.PauseThenResumeKeepsState : Prop :=
  ∀ (n : Nat) (o : HostOp) (s : State), o = .pause ∨ o = .stop → s.fault = .none →
    (s.cfg.pausedTick = .frozen →
      runEvents (.host o :: List.replicate n .tick ++ [.host .resume]) s = .next { s with run := .running }) ∧
    (s.cfg.pausedTick = .timersOnly →
      runEvents (.host o :: List.replicate n .tick ++ [.host .resume]) s =
        .next { s with run := .running, dt := BitVec.ofNat 8 (s.dt.toNat - n),
                       st := BitVec.ofNat 8 (s.st.toNat - n) })

/-- R274: a program load puts byte i at LOAD_ADDR + i and points PC at LOAD_ADDR. -/
def Obligations.LoadCopiesProgram : Prop :=
  ∀ (bytes : List Byte) (s : State), s.mem.wf = true → s.cfg.loadAddr < 4096 →
    s.cfg.loadAddr + bytes.length ≤ 4096 →
    ∃ t, hostOp (.load bytes) s = .next t ∧ t.pc.toNat = s.cfg.loadAddr ∧
      ∀ j (h : j < bytes.length), t.mem.get (s.cfg.loadAddr + j) = bytes[j]

/-- R114, R275, R276 (the spec's decisions D23 and D24): `load` and `start` leave everything else alone, and a load
that does not fit is refused. -/
def Obligations.StartAndLoadKeepTheRest : Prop :=
  ∀ (bytes : List Byte) (s : State),
    (s.cfg.loadAddr + bytes.length ≤ 4096 → ∃ t, hostOp (.load bytes) s = .next t ∧
      (∀ a, a < s.cfg.loadAddr ∨ s.cfg.loadAddr + bytes.length ≤ a → t.mem.get a = s.mem.get a) ∧
      t = { s with mem := t.mem, pc := t.pc }) ∧
    (4096 < s.cfg.loadAddr + bytes.length → hostOp (.load bytes) s = .refused .loadTooLong) ∧
    (s.cfg.loadAddr < 4096 → ∃ t, hostOp .start s = .next t ∧ t.pc.toNat = s.cfg.loadAddr ∧ t.run = .running ∧
      t = { s with pc := t.pc, run := .running })

/-- R252 (the spec's decision D25): a key event sets its own entry and nothing else; an index of 16 or more is
refused. -/
def Obligations.KeyEventsSetOneEntry : Prop :=
  ∀ s : State,
    (∀ k : Fin 16,
      (∃ t, hostOp (.keyPress k.val) s = .next t ∧ t = { s with key := t.key } ∧
        ∀ j : Fin 16, t.key[j.val] = if j = k then true else s.key[j.val]) ∧
      (∃ t, hostOp (.keyRelease k.val) s = .next t ∧ t = { s with key := t.key } ∧
        ∀ j : Fin 16, t.key[j.val] = if j = k then false else s.key[j.val])) ∧
    (∀ k, 16 ≤ k → hostOp (.keyPress k) s = .refused .keyIndexOutOfRange ∧
      hostOp (.keyRelease k) s = .refused .keyIndexOutOfRange)

/-- R286 (the spec's decision D28): a halted state re-executes its self-jump for ever; only the timers, the current
opcode and the report move. -/
def Obligations.HaltedStateStaysHalted : Prop :=
  ∀ s : State, s.halted = true → ∃ t, step s = .next t ∧ t.halted = true ∧
    t = { s with dt := down s.dt, st := down s.st, opcode := 0x1000 ||| s.pc, unimpl := false }

/-! ## Runs -/

/-- R286 (the spec's decision D28): a run ends with state `t` at tick `n` exactly when the `n`-th tick is the first one
after which the state is halted or faulted, and it leaves `t`; a run is going exactly when no tick of it does so. -/
def Obligations.RunEndsAtFirstHaltedOrFaultedTick : Prop :=
  ∀ (events : List RunEvent) (s t : State),
    (∀ n, runToEnd events s = .ended n t ↔
      ∃ before rest, events = before ++ .tick :: rest ∧ n = before.count .tick + 1 ∧
        runEvents ((before ++ [.tick]).map RunEvent.toEvent) s = .next t ∧ (t.halted = true ∨ t.fault ≠ .none) ∧
        ∀ b u, b ++ [.tick] <+: before → runEvents ((b ++ [.tick]).map RunEvent.toEvent) s = .next u →
          u.halted = false ∧ u.fault = .none) ∧
    (runToEnd events s = .going t ↔
      runEvents (events.map RunEvent.toEvent) s = .next t ∧
      ∀ b u, b ++ [.tick] <+: events → runEvents ((b ++ [.tick]).map RunEvent.toEvent) s = .next u →
        u.halted = false ∧ u.fault = .none)

/-- R270, R271, R278, R279, R286 (the spec's decisions D13 for the run state, D15 for the fault latch, D28 for the end of
a run): a launch state is running from LOAD_ADDR with registers, I and timers at 0, the display clear, no wait and no
fault, and a run from it ends or goes on, whatever keys the host presses. That power-on leaves the core running and
without fault is log entry 9 (DEDUCED), and what a launch state is, log entry 17 (DEDUCED). R279's clause on the memory
outside the program is left out: PowerOnValues and StartAndLoadKeepTheRest state its two halves. -/
def Obligations.LaunchedRunEndsOrGoesOn : Prop :=
  ∀ s : State, s.IsLaunch →
    s.pc.toNat = s.cfg.loadAddr ∧ s.run = .running ∧ s.fault = .none ∧ s.waitKey = false ∧ (∀ r, s.V r = 0) ∧
    s.i = 0 ∧ s.dt = 0 ∧ s.st = 0 ∧ (∀ px py, s.pix.cell px py = false) ∧
    ∀ events : List RunEvent,
      (∃ n t, runToEnd events s = .ended n t ∧ 0 < n) ∨ (∃ t, runToEnd events s = .going t)

/-- R286 (the spec's decision D28): a result is claimed of a halted state; a run that ended in a fault has none, whatever
is claimed; a waiting state is no end; and once a run has ended by halting, further ticks and key events keep
everything but the timers, the keys, the current opcode and the report. -/
def Obligations.OnlyAHaltedEndHasAResult : Prop :=
  (∀ (events : List RunEvent) (s t : State) (n : Nat) (P : State → Prop), runToEnd events s = .ended n t →
    ((runToEnd events s).Result P ↔ t.fault = .none ∧ P t) ∧
    (t.fault = .none → ∀ (more : List RunEvent) (u : State), runEvents (more.map RunEvent.toEvent) t = .next u →
      u.halted = true ∧
      u = { t with dt := u.dt, st := u.st, key := u.key, opcode := u.opcode, unimpl := u.unimpl })) ∧
  (∀ s : State, s.fault = .none → s.waiting = true → s.ended = false)

end
end

