-- ==== Sys2Proof/Laws/Decode.lean ====
section
/-! SUPPORT. Fields of a word as numbers, and decoding by the fields alone. -/

namespace Sys2Proof

theorem n1_toNat (w : Word) : (n1 w).toNat = w.toNat / 4096 := by
  have := w.isLt
  simp only [n1, BitVec.extractLsb'_toNat, Nat.shiftRight_eq_div_pow]; omega

theorem n4_toNat (w : Word) : (n4 w).toNat = w.toNat % 16 := by
  simp [n4, BitVec.extractLsb'_toNat]

theorem fieldX_val (w : Word) : (fieldX w).val = w.toNat / 256 % 16 := by
  show (w.extractLsb' 8 4).toNat = _
  simp [BitVec.extractLsb'_toNat, Nat.shiftRight_eq_div_pow]

theorem fieldY_val (w : Word) : (fieldY w).val = w.toNat / 16 % 16 := by
  show (w.extractLsb' 4 4).toNat = _
  simp [BitVec.extractLsb'_toNat, Nat.shiftRight_eq_div_pow]

theorem fieldN_val (w : Word) : (fieldN w).val = w.toNat % 16 := by
  show (w.extractLsb' 0 4).toNat = _
  simp [BitVec.extractLsb'_toNat]

theorem fieldNN_toNat (w : Word) : (fieldNN w).toNat = w.toNat % 256 := by
  simp [fieldNN, BitVec.extractLsb'_toNat]

theorem fieldNNN_toNat (w : Word) : (fieldNNN w).toNat = w.toNat % 4096 := by
  simp [fieldNNN, BitVec.extractLsb'_toNat]

/-- The word of two bytes is big-endian (20_memory.md R55). -/
theorem wordOfBytes_toNat (hi lo : Byte) : (wordOfBytes hi lo).toNat = hi.toNat * 256 + lo.toNat := by
  have h1 := lo.isLt
  show (hi ++ lo : BitVec (8 + 8)).toNat = _
  rw [BitVec.toNat_append, ← Nat.shiftLeft_add_eq_or_of_lt h1, Nat.shiftLeft_eq]

theorem highByte_toNat (w : Word) : (highByte w).toNat = w.toNat / 256 := by
  have := w.isLt
  simp only [highByte, BitVec.extractLsb'_toNat, Nat.shiftRight_eq_div_pow]; omega

theorem lowByte_toNat (w : Word) : (lowByte w).toNat = w.toNat % 256 := by
  simp [lowByte, BitVec.extractLsb'_toNat]

/-- The two bytes of a word make it again. -/
@[simp] theorem wordOfBytes_split (w : Word) : wordOfBytes (highByte w) (lowByte w) = w := by
  apply BitVec.eq_of_toNat_eq
  rw [wordOfBytes_toNat, highByte_toNat, lowByte_toNat]; omega

/-! ## Fields of encoded words -/

theorem wordXYN_toNat (op : Nat) (x y : Reg) (n : Nat) (h : op < 16) (hn : n < 16) :
    (wordXYN op x y n).toNat = op * 4096 + x.val * 256 + y.val * 16 + n := by
  have := x.isLt; have := y.isLt
  simp only [wordXYN, BitVec.toNat_ofNat]; omega

theorem wordXNN_toNat (op : Nat) (x : Reg) (nn : Byte) (h : op < 16) :
    (wordXNN op x nn).toNat = op * 4096 + x.val * 256 + nn.toNat := by
  have := x.isLt; have := nn.isLt
  simp only [wordXNN, BitVec.toNat_ofNat]; omega

theorem wordNNN_toNat (op : Nat) (nnn : Addr12) (h : op < 16) :
    (wordNNN op nnn).toNat = op * 4096 + nnn.toNat := by
  have := nnn.isLt
  simp only [wordNNN, BitVec.toNat_ofNat]; omega

theorem n1_eq {w : Word} {k : Nat} (hk : k < 16) (h : w.toNat / 4096 = k) : n1 w = BitVec.ofNat 4 k := by
  apply BitVec.eq_of_toNat_eq; rw [n1_toNat, h]; simp; omega

theorem n4_eq {w : Word} {k : Nat} (hk : k < 16) (h : w.toNat % 16 = k) : n4 w = BitVec.ofNat 4 k := by
  apply BitVec.eq_of_toNat_eq; rw [n4_toNat, h]; simp; omega

theorem fieldX_eq {w : Word} {x : Reg} (h : w.toNat / 256 % 16 = x.val) : fieldX w = x :=
  Fin.ext ((fieldX_val w).trans h)

theorem fieldY_eq {w : Word} {y : Reg} (h : w.toNat / 16 % 16 = y.val) : fieldY w = y :=
  Fin.ext ((fieldY_val w).trans h)

theorem fieldN_eq {w : Word} {n : Fin 16} (h : w.toNat % 16 = n.val) : fieldN w = n :=
  Fin.ext ((fieldN_val w).trans h)

theorem fieldNN_eq {w : Word} {nn : Byte} (h : w.toNat % 256 = nn.toNat) : fieldNN w = nn :=
  BitVec.eq_of_toNat_eq ((fieldNN_toNat w).trans h)

theorem fieldNNN_eq {w : Word} {nnn : Addr12} (h : w.toNat % 4096 = nnn.toNat) : fieldNNN w = nnn :=
  BitVec.eq_of_toNat_eq ((fieldNNN_toNat w).trans h)

/-! ## Masks (30_encoding.md R78) -/

/-- The masks of R78 keep whole digits: major opcode. -/
theorem and_major (w : Word) : (w &&& 0xF000#16).toNat = w.toNat / 4096 * 4096 := by
  have := w.isLt
  have h : w &&& 0xF000#16 = (w >>> 12) <<< 12 := by ext i hi; simp; interval_cases i <;> simp
  rw [h, BitVec.toNat_shiftLeft, BitVec.toNat_ushiftRight, Nat.shiftLeft_eq, Nat.shiftRight_eq_div_pow]; omega

/-- Major opcode and low digit. -/
theorem and_majorLow (w : Word) : (w &&& 0xF00F#16).toNat = w.toNat / 4096 * 4096 + w.toNat % 16 := by
  have h : w &&& 0xF00F#16 = (w &&& 0xF000#16) ||| (w &&& 0x000F#16) := by
    rw [← BitVec.and_or_distrib_left]; rfl
  have h2 : w &&& 0x000F#16 = BitVec.ofNat 16 (w.toNat % 2 ^ 4) := by
    apply BitVec.eq_of_toNat_eq
    rw [BitVec.toNat_and]
    exact (Nat.and_two_pow_sub_one_eq_mod w.toNat 4).trans (by simp; omega)
  have h3 : (w &&& 0xF000#16).toNat = (w.toNat / 4096) <<< 12 := by rw [and_major, Nat.shiftLeft_eq]
  rw [h, BitVec.toNat_or, h2, h3, BitVec.toNat_ofNat, Nat.mod_eq_of_lt (by omega),
    ← Nat.shiftLeft_add_eq_or_of_lt (by omega), Nat.shiftLeft_eq]
  norm_num

/-- Major opcode and low byte. -/
theorem and_majorByte (w : Word) : (w &&& 0xF0FF#16).toNat = w.toNat / 4096 * 4096 + w.toNat % 256 := by
  have h : w &&& 0xF0FF#16 = (w &&& 0xF000#16) ||| (w &&& 0x00FF#16) := by
    rw [← BitVec.and_or_distrib_left]; rfl
  have h2 : w &&& 0x00FF#16 = BitVec.ofNat 16 (w.toNat % 2 ^ 8) := by
    apply BitVec.eq_of_toNat_eq
    rw [BitVec.toNat_and]
    exact (Nat.and_two_pow_sub_one_eq_mod w.toNat 8).trans (by simp; omega)
  have h3 : (w &&& 0xF000#16).toNat = (w.toNat / 4096) <<< 12 := by rw [and_major, Nat.shiftLeft_eq]
  rw [h, BitVec.toNat_or, h2, h3, BitVec.toNat_ofNat, Nat.mod_eq_of_lt (by omega),
    ← Nat.shiftLeft_add_eq_or_of_lt (by omega), Nat.shiftLeft_eq]
  norm_num

/-- A row that fixes the major opcode. -/
theorem selects_major {w b : Word} (h : w.toNat / 4096 * 4096 = b.toNat) :
    OpcodeRow.selects ⟨b, 0xF000#16⟩ w = true := by
  have : w &&& 0xF000#16 = b := BitVec.eq_of_toNat_eq ((and_major w).trans h)
  simp [OpcodeRow.selects, this]

/-- A row that fixes the major opcode and the low digit. -/
theorem selects_majorLow {w b : Word} (h : w.toNat / 4096 * 4096 + w.toNat % 16 = b.toNat) :
    OpcodeRow.selects ⟨b, 0xF00F#16⟩ w = true := by
  have : w &&& 0xF00F#16 = b := BitVec.eq_of_toNat_eq ((and_majorLow w).trans h)
  simp [OpcodeRow.selects, this]

/-- A row that fixes the major opcode and the low byte. -/
theorem selects_majorByte {w b : Word} (h : w.toNat / 4096 * 4096 + w.toNat % 256 = b.toNat) :
    OpcodeRow.selects ⟨b, 0xF0FF#16⟩ w = true := by
  have : w &&& 0xF0FF#16 = b := BitVec.eq_of_toNat_eq ((and_majorByte w).trans h)
  simp [OpcodeRow.selects, this]

end Sys2Proof
end

