-- ==== Sys2Proof/Laws/State.lean ====
section
/-! SUPPORT. For every named update of State, what each field of the result is. -/

namespace Sys2Proof.Machine

/-! ## setV -/

@[simp] theorem State.setV_v (s : State) (r : Reg) (b : Byte) :
    (s.setV r b).v = s.v.set r.val b r.isLt := rfl
@[simp] theorem State.setV_i (s : State) (r : Reg) (b : Byte) :
    (s.setV r b).i = s.i := rfl
@[simp] theorem State.setV_pc (s : State) (r : Reg) (b : Byte) :
    (s.setV r b).pc = s.pc := rfl
@[simp] theorem State.setV_dt (s : State) (r : Reg) (b : Byte) :
    (s.setV r b).dt = s.dt := rfl
@[simp] theorem State.setV_st (s : State) (r : Reg) (b : Byte) :
    (s.setV r b).st = s.st := rfl
@[simp] theorem State.setV_mem (s : State) (r : Reg) (b : Byte) :
    (s.setV r b).mem = s.mem := rfl
@[simp] theorem State.setV_pix (s : State) (r : Reg) (b : Byte) :
    (s.setV r b).pix = s.pix := rfl
@[simp] theorem State.setV_key (s : State) (r : Reg) (b : Byte) :
    (s.setV r b).key = s.key := rfl
@[simp] theorem State.setV_waitKey (s : State) (r : Reg) (b : Byte) :
    (s.setV r b).waitKey = s.waitKey := rfl
@[simp] theorem State.setV_opcode (s : State) (r : Reg) (b : Byte) :
    (s.setV r b).opcode = s.opcode := rfl
@[simp] theorem State.setV_run (s : State) (r : Reg) (b : Byte) :
    (s.setV r b).run = s.run := rfl
@[simp] theorem State.setV_fault (s : State) (r : Reg) (b : Byte) :
    (s.setV r b).fault = s.fault := rfl
@[simp] theorem State.setV_faultInfo (s : State) (r : Reg) (b : Byte) :
    (s.setV r b).faultInfo = s.faultInfo := rfl
@[simp] theorem State.setV_unimpl (s : State) (r : Reg) (b : Byte) :
    (s.setV r b).unimpl = s.unimpl := rfl
@[simp] theorem State.setV_draws (s : State) (r : Reg) (b : Byte) :
    (s.setV r b).draws = s.draws := rfl
@[simp] theorem State.setV_cfg (s : State) (r : Reg) (b : Byte) :
    (s.setV r b).cfg = s.cfg := rfl

/-! ## setI -/

@[simp] theorem State.setI_v (s : State) (n : Nat) :
    (s.setI n).v = s.v := rfl
@[simp] theorem State.setI_i (s : State) (n : Nat) :
    (s.setI n).i = BitVec.ofNat 16 n &&& IMask.toWord s.cfg.iMask := rfl
@[simp] theorem State.setI_pc (s : State) (n : Nat) :
    (s.setI n).pc = s.pc := rfl
@[simp] theorem State.setI_dt (s : State) (n : Nat) :
    (s.setI n).dt = s.dt := rfl
@[simp] theorem State.setI_st (s : State) (n : Nat) :
    (s.setI n).st = s.st := rfl
@[simp] theorem State.setI_mem (s : State) (n : Nat) :
    (s.setI n).mem = s.mem := rfl
@[simp] theorem State.setI_pix (s : State) (n : Nat) :
    (s.setI n).pix = s.pix := rfl
@[simp] theorem State.setI_key (s : State) (n : Nat) :
    (s.setI n).key = s.key := rfl
@[simp] theorem State.setI_waitKey (s : State) (n : Nat) :
    (s.setI n).waitKey = s.waitKey := rfl
@[simp] theorem State.setI_opcode (s : State) (n : Nat) :
    (s.setI n).opcode = s.opcode := rfl
@[simp] theorem State.setI_run (s : State) (n : Nat) :
    (s.setI n).run = s.run := rfl
@[simp] theorem State.setI_fault (s : State) (n : Nat) :
    (s.setI n).fault = s.fault := rfl
@[simp] theorem State.setI_faultInfo (s : State) (n : Nat) :
    (s.setI n).faultInfo = s.faultInfo := rfl
@[simp] theorem State.setI_unimpl (s : State) (n : Nat) :
    (s.setI n).unimpl = s.unimpl := rfl
@[simp] theorem State.setI_draws (s : State) (n : Nat) :
    (s.setI n).draws = s.draws := rfl
@[simp] theorem State.setI_cfg (s : State) (n : Nat) :
    (s.setI n).cfg = s.cfg := rfl

/-! ## setPc -/

@[simp] theorem State.setPc_v (s : State) (n : Nat) :
    (s.setPc n).v = s.v := rfl
@[simp] theorem State.setPc_i (s : State) (n : Nat) :
    (s.setPc n).i = s.i := rfl
@[simp] theorem State.setPc_pc (s : State) (n : Nat) :
    (s.setPc n).pc = BitVec.ofNat 16 n := rfl
@[simp] theorem State.setPc_dt (s : State) (n : Nat) :
    (s.setPc n).dt = s.dt := rfl
@[simp] theorem State.setPc_st (s : State) (n : Nat) :
    (s.setPc n).st = s.st := rfl
@[simp] theorem State.setPc_mem (s : State) (n : Nat) :
    (s.setPc n).mem = s.mem := rfl
@[simp] theorem State.setPc_pix (s : State) (n : Nat) :
    (s.setPc n).pix = s.pix := rfl
@[simp] theorem State.setPc_key (s : State) (n : Nat) :
    (s.setPc n).key = s.key := rfl
@[simp] theorem State.setPc_waitKey (s : State) (n : Nat) :
    (s.setPc n).waitKey = s.waitKey := rfl
@[simp] theorem State.setPc_opcode (s : State) (n : Nat) :
    (s.setPc n).opcode = s.opcode := rfl
@[simp] theorem State.setPc_run (s : State) (n : Nat) :
    (s.setPc n).run = s.run := rfl
@[simp] theorem State.setPc_fault (s : State) (n : Nat) :
    (s.setPc n).fault = s.fault := rfl
@[simp] theorem State.setPc_faultInfo (s : State) (n : Nat) :
    (s.setPc n).faultInfo = s.faultInfo := rfl
@[simp] theorem State.setPc_unimpl (s : State) (n : Nat) :
    (s.setPc n).unimpl = s.unimpl := rfl
@[simp] theorem State.setPc_draws (s : State) (n : Nat) :
    (s.setPc n).draws = s.draws := rfl
@[simp] theorem State.setPc_cfg (s : State) (n : Nat) :
    (s.setPc n).cfg = s.cfg := rfl

/-! ## skipIf -/

@[simp] theorem State.skipIf_v (s : State) (c : Bool) :
    (s.skipIf c).v = s.v := by cases c <;> rfl
@[simp] theorem State.skipIf_i (s : State) (c : Bool) :
    (s.skipIf c).i = s.i := by cases c <;> rfl
@[simp] theorem State.skipIf_pc (s : State) (c : Bool) :
    (s.skipIf c).pc = if c then BitVec.ofNat 16 (s.pc.toNat + 2) else s.pc := by cases c <;> rfl
@[simp] theorem State.skipIf_dt (s : State) (c : Bool) :
    (s.skipIf c).dt = s.dt := by cases c <;> rfl
@[simp] theorem State.skipIf_st (s : State) (c : Bool) :
    (s.skipIf c).st = s.st := by cases c <;> rfl
@[simp] theorem State.skipIf_mem (s : State) (c : Bool) :
    (s.skipIf c).mem = s.mem := by cases c <;> rfl
@[simp] theorem State.skipIf_pix (s : State) (c : Bool) :
    (s.skipIf c).pix = s.pix := by cases c <;> rfl
@[simp] theorem State.skipIf_key (s : State) (c : Bool) :
    (s.skipIf c).key = s.key := by cases c <;> rfl
@[simp] theorem State.skipIf_waitKey (s : State) (c : Bool) :
    (s.skipIf c).waitKey = s.waitKey := by cases c <;> rfl
@[simp] theorem State.skipIf_opcode (s : State) (c : Bool) :
    (s.skipIf c).opcode = s.opcode := by cases c <;> rfl
@[simp] theorem State.skipIf_run (s : State) (c : Bool) :
    (s.skipIf c).run = s.run := by cases c <;> rfl
@[simp] theorem State.skipIf_fault (s : State) (c : Bool) :
    (s.skipIf c).fault = s.fault := by cases c <;> rfl
@[simp] theorem State.skipIf_faultInfo (s : State) (c : Bool) :
    (s.skipIf c).faultInfo = s.faultInfo := by cases c <;> rfl
@[simp] theorem State.skipIf_unimpl (s : State) (c : Bool) :
    (s.skipIf c).unimpl = s.unimpl := by cases c <;> rfl
@[simp] theorem State.skipIf_draws (s : State) (c : Bool) :
    (s.skipIf c).draws = s.draws := by cases c <;> rfl
@[simp] theorem State.skipIf_cfg (s : State) (c : Bool) :
    (s.skipIf c).cfg = s.cfg := by cases c <;> rfl

/-! ## loadV -/

@[simp] theorem State.loadV_v (s : State) (bs : List Byte) :
    (s.loadV bs).v = s.v.mapIdx fun j b => bs.getD j b := rfl
@[simp] theorem State.loadV_i (s : State) (bs : List Byte) :
    (s.loadV bs).i = s.i := rfl
@[simp] theorem State.loadV_pc (s : State) (bs : List Byte) :
    (s.loadV bs).pc = s.pc := rfl
@[simp] theorem State.loadV_dt (s : State) (bs : List Byte) :
    (s.loadV bs).dt = s.dt := rfl
@[simp] theorem State.loadV_st (s : State) (bs : List Byte) :
    (s.loadV bs).st = s.st := rfl
@[simp] theorem State.loadV_mem (s : State) (bs : List Byte) :
    (s.loadV bs).mem = s.mem := rfl
@[simp] theorem State.loadV_pix (s : State) (bs : List Byte) :
    (s.loadV bs).pix = s.pix := rfl
@[simp] theorem State.loadV_key (s : State) (bs : List Byte) :
    (s.loadV bs).key = s.key := rfl
@[simp] theorem State.loadV_waitKey (s : State) (bs : List Byte) :
    (s.loadV bs).waitKey = s.waitKey := rfl
@[simp] theorem State.loadV_opcode (s : State) (bs : List Byte) :
    (s.loadV bs).opcode = s.opcode := rfl
@[simp] theorem State.loadV_run (s : State) (bs : List Byte) :
    (s.loadV bs).run = s.run := rfl
@[simp] theorem State.loadV_fault (s : State) (bs : List Byte) :
    (s.loadV bs).fault = s.fault := rfl
@[simp] theorem State.loadV_faultInfo (s : State) (bs : List Byte) :
    (s.loadV bs).faultInfo = s.faultInfo := rfl
@[simp] theorem State.loadV_unimpl (s : State) (bs : List Byte) :
    (s.loadV bs).unimpl = s.unimpl := rfl
@[simp] theorem State.loadV_draws (s : State) (bs : List Byte) :
    (s.loadV bs).draws = s.draws := rfl
@[simp] theorem State.loadV_cfg (s : State) (bs : List Byte) :
    (s.loadV bs).cfg = s.cfg := rfl

/-! ## raiseAt -/

@[simp] theorem State.raiseAt_v (s : State) (c : FaultCause) (n : Nat) (a : Word) :
    (s.raiseAt c n a).v = s.v := rfl
@[simp] theorem State.raiseAt_i (s : State) (c : FaultCause) (n : Nat) (a : Word) :
    (s.raiseAt c n a).i = s.i := rfl
@[simp] theorem State.raiseAt_pc (s : State) (c : FaultCause) (n : Nat) (a : Word) :
    (s.raiseAt c n a).pc = a := rfl
@[simp] theorem State.raiseAt_dt (s : State) (c : FaultCause) (n : Nat) (a : Word) :
    (s.raiseAt c n a).dt = s.dt := rfl
@[simp] theorem State.raiseAt_st (s : State) (c : FaultCause) (n : Nat) (a : Word) :
    (s.raiseAt c n a).st = s.st := rfl
@[simp] theorem State.raiseAt_mem (s : State) (c : FaultCause) (n : Nat) (a : Word) :
    (s.raiseAt c n a).mem = s.mem := rfl
@[simp] theorem State.raiseAt_pix (s : State) (c : FaultCause) (n : Nat) (a : Word) :
    (s.raiseAt c n a).pix = s.pix := rfl
@[simp] theorem State.raiseAt_key (s : State) (c : FaultCause) (n : Nat) (a : Word) :
    (s.raiseAt c n a).key = s.key := rfl
@[simp] theorem State.raiseAt_waitKey (s : State) (c : FaultCause) (n : Nat) (a : Word) :
    (s.raiseAt c n a).waitKey = s.waitKey := rfl
@[simp] theorem State.raiseAt_opcode (s : State) (c : FaultCause) (n : Nat) (a : Word) :
    (s.raiseAt c n a).opcode = s.opcode := rfl
@[simp] theorem State.raiseAt_run (s : State) (c : FaultCause) (n : Nat) (a : Word) :
    (s.raiseAt c n a).run = s.run := rfl
@[simp] theorem State.raiseAt_fault (s : State) (c : FaultCause) (n : Nat) (a : Word) :
    (s.raiseAt c n a).fault = c := rfl
@[simp] theorem State.raiseAt_faultInfo (s : State) (c : FaultCause) (n : Nat) (a : Word) :
    (s.raiseAt c n a).faultInfo = n := rfl
@[simp] theorem State.raiseAt_unimpl (s : State) (c : FaultCause) (n : Nat) (a : Word) :
    (s.raiseAt c n a).unimpl = s.unimpl := rfl
@[simp] theorem State.raiseAt_draws (s : State) (c : FaultCause) (n : Nat) (a : Word) :
    (s.raiseAt c n a).draws = s.draws := rfl
@[simp] theorem State.raiseAt_cfg (s : State) (c : FaultCause) (n : Nat) (a : Word) :
    (s.raiseAt c n a).cfg = s.cfg := rfl

/-! ## raise -/

@[simp] theorem State.raise_v (s : State) (c : FaultCause) (n : Nat) :
    (s.raise c n).v = s.v := rfl
@[simp] theorem State.raise_i (s : State) (c : FaultCause) (n : Nat) :
    (s.raise c n).i = s.i := rfl
@[simp] theorem State.raise_pc (s : State) (c : FaultCause) (n : Nat) :
    (s.raise c n).pc = s.pc - 2 := rfl
@[simp] theorem State.raise_dt (s : State) (c : FaultCause) (n : Nat) :
    (s.raise c n).dt = s.dt := rfl
@[simp] theorem State.raise_st (s : State) (c : FaultCause) (n : Nat) :
    (s.raise c n).st = s.st := rfl
@[simp] theorem State.raise_mem (s : State) (c : FaultCause) (n : Nat) :
    (s.raise c n).mem = s.mem := rfl
@[simp] theorem State.raise_pix (s : State) (c : FaultCause) (n : Nat) :
    (s.raise c n).pix = s.pix := rfl
@[simp] theorem State.raise_key (s : State) (c : FaultCause) (n : Nat) :
    (s.raise c n).key = s.key := rfl
@[simp] theorem State.raise_waitKey (s : State) (c : FaultCause) (n : Nat) :
    (s.raise c n).waitKey = s.waitKey := rfl
@[simp] theorem State.raise_opcode (s : State) (c : FaultCause) (n : Nat) :
    (s.raise c n).opcode = s.opcode := rfl
@[simp] theorem State.raise_run (s : State) (c : FaultCause) (n : Nat) :
    (s.raise c n).run = s.run := rfl
@[simp] theorem State.raise_fault (s : State) (c : FaultCause) (n : Nat) :
    (s.raise c n).fault = c := rfl
@[simp] theorem State.raise_faultInfo (s : State) (c : FaultCause) (n : Nat) :
    (s.raise c n).faultInfo = n := rfl
@[simp] theorem State.raise_unimpl (s : State) (c : FaultCause) (n : Nat) :
    (s.raise c n).unimpl = s.unimpl := rfl
@[simp] theorem State.raise_draws (s : State) (c : FaultCause) (n : Nat) :
    (s.raise c n).draws = s.draws := rfl
@[simp] theorem State.raise_cfg (s : State) (c : FaultCause) (n : Nat) :
    (s.raise c n).cfg = s.cfg := rfl

/-! ## composite -/

@[simp] theorem State.composite_v (s : State) (ps : List (Nat × Nat)) :
    (s.composite ps).v = s.v.set VF.val (drawFlag s.cfg ps (s.V VF)) VF.isLt := rfl
@[simp] theorem State.composite_i (s : State) (ps : List (Nat × Nat)) :
    (s.composite ps).i = s.i := rfl
@[simp] theorem State.composite_pc (s : State) (ps : List (Nat × Nat)) :
    (s.composite ps).pc = s.pc := rfl
@[simp] theorem State.composite_dt (s : State) (ps : List (Nat × Nat)) :
    (s.composite ps).dt = s.dt := rfl
@[simp] theorem State.composite_st (s : State) (ps : List (Nat × Nat)) :
    (s.composite ps).st = s.st := rfl
@[simp] theorem State.composite_mem (s : State) (ps : List (Nat × Nat)) :
    (s.composite ps).mem = s.mem := rfl
@[simp] theorem State.composite_pix (s : State) (ps : List (Nat × Nat)) :
    (s.composite ps).pix = s.pix.toggleAll ps := rfl
@[simp] theorem State.composite_key (s : State) (ps : List (Nat × Nat)) :
    (s.composite ps).key = s.key := rfl
@[simp] theorem State.composite_waitKey (s : State) (ps : List (Nat × Nat)) :
    (s.composite ps).waitKey = s.waitKey := rfl
@[simp] theorem State.composite_opcode (s : State) (ps : List (Nat × Nat)) :
    (s.composite ps).opcode = s.opcode := rfl
@[simp] theorem State.composite_run (s : State) (ps : List (Nat × Nat)) :
    (s.composite ps).run = s.run := rfl
@[simp] theorem State.composite_fault (s : State) (ps : List (Nat × Nat)) :
    (s.composite ps).fault = s.fault := rfl
@[simp] theorem State.composite_faultInfo (s : State) (ps : List (Nat × Nat)) :
    (s.composite ps).faultInfo = s.faultInfo := rfl
@[simp] theorem State.composite_unimpl (s : State) (ps : List (Nat × Nat)) :
    (s.composite ps).unimpl = s.unimpl := rfl
@[simp] theorem State.composite_draws (s : State) (ps : List (Nat × Nat)) :
    (s.composite ps).draws = s.draws := rfl
@[simp] theorem State.composite_cfg (s : State) (ps : List (Nat × Nat)) :
    (s.composite ps).cfg = s.cfg := rfl

/-! ## timerStage -/

@[simp] theorem State.timerStage_v (s : State) :
    (s.timerStage).v = s.v := rfl
@[simp] theorem State.timerStage_i (s : State) :
    (s.timerStage).i = s.i := rfl
@[simp] theorem State.timerStage_pc (s : State) :
    (s.timerStage).pc = s.pc := rfl
@[simp] theorem State.timerStage_dt (s : State) :
    (s.timerStage).dt = timerDown s.dt := rfl
@[simp] theorem State.timerStage_st (s : State) :
    (s.timerStage).st = timerDown s.st := rfl
@[simp] theorem State.timerStage_mem (s : State) :
    (s.timerStage).mem = s.mem := rfl
@[simp] theorem State.timerStage_pix (s : State) :
    (s.timerStage).pix = s.pix := rfl
@[simp] theorem State.timerStage_key (s : State) :
    (s.timerStage).key = s.key := rfl
@[simp] theorem State.timerStage_waitKey (s : State) :
    (s.timerStage).waitKey = s.waitKey := rfl
@[simp] theorem State.timerStage_opcode (s : State) :
    (s.timerStage).opcode = s.opcode := rfl
@[simp] theorem State.timerStage_run (s : State) :
    (s.timerStage).run = s.run := rfl
@[simp] theorem State.timerStage_fault (s : State) :
    (s.timerStage).fault = s.fault := rfl
@[simp] theorem State.timerStage_faultInfo (s : State) :
    (s.timerStage).faultInfo = s.faultInfo := rfl
@[simp] theorem State.timerStage_unimpl (s : State) :
    (s.timerStage).unimpl = s.unimpl := rfl
@[simp] theorem State.timerStage_draws (s : State) :
    (s.timerStage).draws = s.draws := rfl
@[simp] theorem State.timerStage_cfg (s : State) :
    (s.timerStage).cfg = s.cfg := rfl

/-! ## released -/

@[simp] theorem State.released_v (s : State) :
    (s.released).v = s.v := rfl
@[simp] theorem State.released_i (s : State) :
    (s.released).i = s.i := rfl
@[simp] theorem State.released_pc (s : State) :
    (s.released).pc = s.pc := rfl
@[simp] theorem State.released_dt (s : State) :
    (s.released).dt = s.dt := rfl
@[simp] theorem State.released_st (s : State) :
    (s.released).st = s.st := rfl
@[simp] theorem State.released_mem (s : State) :
    (s.released).mem = s.mem := rfl
@[simp] theorem State.released_pix (s : State) :
    (s.released).pix = s.pix := rfl
@[simp] theorem State.released_key (s : State) :
    (s.released).key = s.key := rfl
@[simp] theorem State.released_waitKey (s : State) :
    (s.released).waitKey = false := rfl
@[simp] theorem State.released_opcode (s : State) :
    (s.released).opcode = s.opcode := rfl
@[simp] theorem State.released_run (s : State) :
    (s.released).run = s.run := rfl
@[simp] theorem State.released_fault (s : State) :
    (s.released).fault = s.fault := rfl
@[simp] theorem State.released_faultInfo (s : State) :
    (s.released).faultInfo = s.faultInfo := rfl
@[simp] theorem State.released_unimpl (s : State) :
    (s.released).unimpl = s.unimpl := rfl
@[simp] theorem State.released_draws (s : State) :
    (s.released).draws = s.draws := rfl
@[simp] theorem State.released_cfg (s : State) :
    (s.released).cfg = s.cfg := rfl

/-! ## fetched -/

@[simp] theorem State.fetched_v (s : State) :
    (s.fetched).v = s.v := rfl
@[simp] theorem State.fetched_i (s : State) :
    (s.fetched).i = s.i := rfl
@[simp] theorem State.fetched_pc (s : State) :
    (s.fetched).pc = BitVec.ofNat 16 (s.pc.toNat + 2) := rfl
@[simp] theorem State.fetched_dt (s : State) :
    (s.fetched).dt = s.dt := rfl
@[simp] theorem State.fetched_st (s : State) :
    (s.fetched).st = s.st := rfl
@[simp] theorem State.fetched_mem (s : State) :
    (s.fetched).mem = s.mem := rfl
@[simp] theorem State.fetched_pix (s : State) :
    (s.fetched).pix = s.pix := rfl
@[simp] theorem State.fetched_key (s : State) :
    (s.fetched).key = s.key := rfl
@[simp] theorem State.fetched_waitKey (s : State) :
    (s.fetched).waitKey = s.waitKey := rfl
@[simp] theorem State.fetched_opcode (s : State) :
    (s.fetched).opcode = s.fetchWord := rfl
@[simp] theorem State.fetched_run (s : State) :
    (s.fetched).run = s.run := rfl
@[simp] theorem State.fetched_fault (s : State) :
    (s.fetched).fault = s.fault := rfl
@[simp] theorem State.fetched_faultInfo (s : State) :
    (s.fetched).faultInfo = s.faultInfo := rfl
@[simp] theorem State.fetched_unimpl (s : State) :
    (s.fetched).unimpl = false := rfl
@[simp] theorem State.fetched_draws (s : State) :
    (s.fetched).draws = s.draws := rfl
@[simp] theorem State.fetched_cfg (s : State) :
    (s.fetched).cfg = s.cfg := rfl

/-! ## rollBack -/

@[simp] theorem State.rollBack_v (s : State) :
    (s.rollBack).v = s.v := by unfold State.rollBack; split <;> rfl
@[simp] theorem State.rollBack_i (s : State) :
    (s.rollBack).i = s.i := by unfold State.rollBack; split <;> rfl
@[simp] theorem State.rollBack_pc (s : State) :
    (s.rollBack).pc = if s.waitKey then s.pc - 2 else s.pc := by unfold State.rollBack; split <;> rfl
@[simp] theorem State.rollBack_dt (s : State) :
    (s.rollBack).dt = s.dt := by unfold State.rollBack; split <;> rfl
@[simp] theorem State.rollBack_st (s : State) :
    (s.rollBack).st = s.st := by unfold State.rollBack; split <;> rfl
@[simp] theorem State.rollBack_mem (s : State) :
    (s.rollBack).mem = s.mem := by unfold State.rollBack; split <;> rfl
@[simp] theorem State.rollBack_pix (s : State) :
    (s.rollBack).pix = s.pix := by unfold State.rollBack; split <;> rfl
@[simp] theorem State.rollBack_key (s : State) :
    (s.rollBack).key = s.key := by unfold State.rollBack; split <;> rfl
@[simp] theorem State.rollBack_waitKey (s : State) :
    (s.rollBack).waitKey = s.waitKey := by unfold State.rollBack; split <;> rfl
@[simp] theorem State.rollBack_opcode (s : State) :
    (s.rollBack).opcode = s.opcode := by unfold State.rollBack; split <;> rfl
@[simp] theorem State.rollBack_run (s : State) :
    (s.rollBack).run = s.run := by unfold State.rollBack; split <;> rfl
@[simp] theorem State.rollBack_fault (s : State) :
    (s.rollBack).fault = s.fault := by unfold State.rollBack; split <;> rfl
@[simp] theorem State.rollBack_faultInfo (s : State) :
    (s.rollBack).faultInfo = s.faultInfo := by unfold State.rollBack; split <;> rfl
@[simp] theorem State.rollBack_unimpl (s : State) :
    (s.rollBack).unimpl = s.unimpl := by unfold State.rollBack; split <;> rfl
@[simp] theorem State.rollBack_draws (s : State) :
    (s.rollBack).draws = s.draws := by unfold State.rollBack; split <;> rfl
@[simp] theorem State.rollBack_cfg (s : State) :
    (s.rollBack).cfg = s.cfg := by unfold State.rollBack; split <;> rfl

end Sys2Proof.Machine
end

