-- ==== Sys2Proof/Laws/Ops.lean ====
section
/-! SUPPORT. One lemma for each shared operation over registers, flags, I, display and the fault latch: what it
does. Memory has a file of its own, Laws/Memory.lean. -/

namespace Sys2Proof.Machine

/-! ## Registers -/

@[simp] theorem State.setV_V (s : State) (r q : Reg) (b : Byte) :
    (s.setV r b).V q = if q = r then b else s.V q := by
  simp [State.V, State.setV, Vector.getElem_set, Fin.ext_iff, eq_comm]

/-- Reading registers depends on the register file alone. -/
theorem State.V_congr {s t : State} (h : t.v = s.v) (r : Reg) : t.V r = s.V r := by
  simp [State.V, h]

/-- Two register files that read alike are the same. -/
theorem State.v_ext {s t : State} (h : ∀ r, t.V r = s.V r) : t.v = s.v := by
  apply Vector.ext
  intro j hj
  exact h ⟨j, hj⟩

theorem State.loadV_V (s : State) (bs : List Byte) (r : Reg) :
    (s.loadV bs).V r = bs.getD r.val (s.V r) := by
  simp [State.V, State.loadV, Vector.getElem_mapIdx]

@[simp] theorem State.regsUpTo_length (s : State) (x : Reg) : (s.regsUpTo x).length = x.val + 1 := by
  have := x.isLt
  simp only [State.regsUpTo, List.length_take, Vector.length_toList]; omega

/-- The `j`-th byte Fx55 stores is Vj. -/
theorem State.regsUpTo_get (s : State) (x r : Reg) (h : r.val ≤ x.val) (d : Byte) :
    (s.regsUpTo x).getD r.val d = s.V r := by
  have := r.isLt
  simp [State.regsUpTo, State.V, List.getD, Nat.lt_succ_of_le h]

/-! ## I and PC -/

/-- A masked value stays within the mask. -/
@[simp] theorem State.setI_masked (s : State) (n : Nat) :
    (s.setI n).i &&& IMask.toWord (s.setI n).cfg.iMask = (s.setI n).i := by
  simp [BitVec.and_assoc]

/-! ## Flags -/

theorem flagByte_toNat (b : Bool) : (flagByte b).toNat = if b then 1 else 0 := by cases b <;> rfl

theorem shiftOutRight_toNat (a : Byte) : (shiftOutRight a).toNat = a.toNat % 2 := by
  simp [shiftOutRight, BitVec.toNat_and, Nat.and_one_is_mod]

theorem shiftOutLeft_toNat (a : Byte) : (shiftOutLeft a).toNat = a.toNat / 128 := by
  revert a; decide

/-! ## Fault addresses -/

/-- `outOfRange` is the spec's search for the smallest address at or above MEM_SIZE (43_index_memory.md R184). -/
theorem outOfRange_eq_find (a len : Nat) :
    outOfRange a len = ((List.range len).map (a + ·)).find? fun b => decide (memSize ≤ b) := by
  induction len with
  | zero => simp [outOfRange]
  | succ n ih =>
    rw [List.range_succ, List.map_append, List.find?_append, ← ih]
    unfold outOfRange
    by_cases hn : n = 0
    · subst hn
      by_cases h : a + 1 ≤ memSize
      · simp [show ¬ memSize ≤ a by omega]
      · simp [show memSize ≤ a by omega]
    · by_cases h : a + n ≤ memSize
      · by_cases h1 : a + (n + 1) ≤ memSize
        · simp [hn, h, h1]; omega
        · have : a + n = memSize := by omega
          simp [hn, h1, this]; omega
      · simp [hn, h, show ¬ a + (n + 1) ≤ memSize by omega]

theorem outOfRange_none {a len : Nat} : outOfRange a len = none ↔ len = 0 ∨ a + len ≤ memSize := by
  unfold outOfRange; split <;> simp_all

theorem outOfRange_some {a len b : Nat} :
    outOfRange a len = some b ↔ ¬ (len = 0 ∨ a + len ≤ memSize) ∧ b = max a memSize := by
  unfold outOfRange; split <;> simp_all [eq_comm]

/-! ## Display -/

theorem Display.cell_toggle (d : Display) (px py qx qy : Nat)
    (hy : py < d.rows.length) (hx : px < (d.rows.getD py []).length) :
    (d.toggle px py).cell qx qy = if qx = px ∧ qy = py then !(d.cell qx qy) else d.cell qx qy := by
  simp only [Display.cell, Display.toggle, List.getD, List.getElem?_modify]
  by_cases hq : qy = py
  · subst hq
    simp only [List.getD] at hx
    obtain ⟨row, hr⟩ : ∃ row, d.rows[qy]? = some row := ⟨_, List.getElem?_eq_getElem hy⟩
    simp only [hr, Option.getD_some] at hx ⊢
    by_cases hp : qx = px
    · subst hp
      simp [hx]
    · simp [hp, Ne.symm hp]
  · simp [hq, Ne.symm hq]

theorem Display.toggle_shaped {d : Display} {w h : Nat} (hd : d.rows.length = h ∧ ∀ row ∈ d.rows, row.length = w)
    (px py : Nat) :
    (d.toggle px py).rows.length = h ∧ ∀ row ∈ (d.toggle px py).rows, row.length = w := by
  refine ⟨by simpa [Display.toggle] using hd.1, fun row hrow => ?_⟩
  simp only [Display.toggle] at hrow
  obtain ⟨k, hk, rfl⟩ := List.getElem_of_mem hrow
  rw [List.getElem_modify]
  have hk' : k < d.rows.length := by simpa using hk
  split
  · simpa using hd.2 _ (List.getElem_mem hk')
  · exact hd.2 _ (List.getElem_mem hk')

theorem Display.toggleAll_shaped {w h : Nat} (ps : List (Nat × Nat)) {d : Display}
    (hd : d.rows.length = h ∧ ∀ row ∈ d.rows, row.length = w) :
    (d.toggleAll ps).rows.length = h ∧ ∀ row ∈ (d.toggleAll ps).rows, row.length = w := by
  induction ps generalizing d with
  | nil => exact hd
  | cons p ps ih => exact ih (Display.toggle_shaped hd p.1 p.2)

/-- Flipping a list of cells that all lie on the display changes a cell when the list names it an odd number of
times (44_display.md R205). -/
theorem Display.cell_toggleAll {w h : Nat} (ps : List (Nat × Nat)) (hps : ∀ p ∈ ps, p.1 < w ∧ p.2 < h)
    {d : Display} (hd : d.rows.length = h ∧ ∀ row ∈ d.rows, row.length = w) (qx qy : Nat) :
    (d.toggleAll ps).cell qx qy = (d.cell qx qy != decide (ps.count (qx, qy) % 2 = 1)) := by
  induction ps generalizing d with
  | nil => simp [Display.toggleAll]
  | cons p ps ih =>
    obtain ⟨px, py⟩ := p
    have hp := hps _ (List.mem_cons_self ..)
    have hy : py < d.rows.length := by rw [hd.1]; exact hp.2
    have hx : px < (d.rows.getD py []).length := by
      rw [List.getD_eq_getElem _ _ hy, hd.2 _ (List.getElem_mem hy)]; exact hp.1
    simp only [Display.toggleAll]
    rw [ih (fun q hq => hps q (List.mem_cons_of_mem _ hq)) (Display.toggle_shaped hd px py),
      Display.cell_toggle d px py qx qy hy hx, List.count_cons]
    by_cases hq : qx = px ∧ qy = py
    · obtain ⟨rfl, rfl⟩ := hq
      rcases Nat.mod_two_eq_zero_or_one (ps.count (qx, qy)) with h0 | h0 <;>
        cases d.cell qx qy <;> simp [h0, Nat.add_mod]
    · have : ¬ ((px, py) == (qx, qy)) = true := by simp; exact fun h1 h2 => hq ⟨h1.symm, h2.symm⟩
      simp [hq, this]

theorem Display.blank_shaped (w h : Nat) :
    (Display.blank w h).rows.length = h ∧ ∀ row ∈ (Display.blank w h).rows, row.length = w := by
  simp [Display.blank, List.mem_replicate]

theorem Display.cell_blank (w h px py : Nat) : (Display.blank w h).cell px py = false := by
  simp only [Display.cell, Display.blank, List.getD, List.getElem?_replicate]
  split
  · simp only [Option.getD_some, List.getElem?_replicate]; split <;> rfl
  · rfl

/-! ## Sprites -/

/-- A pixel of a sprite row: its column is one of the eight, and its bit is set. -/
theorem mem_rowPixels {px0 py : Nat} {row : Byte} {p : Nat × Nat} :
    p ∈ rowPixels px0 py row ↔ ∃ c, c < 8 ∧ row.getLsbD (7 - c) = true ∧ p = (px0 + c, py) := by
  simp only [rowPixels, List.mem_map, List.mem_filter, List.mem_range]
  constructor
  · rintro ⟨c, ⟨h1, h2⟩, rfl⟩; exact ⟨c, h1, h2, rfl⟩
  · rintro ⟨c, h1, h2, rfl⟩; exact ⟨c, ⟨h1, h2⟩, rfl⟩

/-- A pixel of a sprite: row offset, column offset and the set bit (44_display.md R202, R203). -/
theorem mem_spritePixels {px0 py0 : Nat} {rows : List Byte} {p : Nat × Nat} :
    p ∈ spritePixels px0 py0 rows ↔
      ∃ r c, r < rows.length ∧ c < 8 ∧ (rows.getD r 0).getLsbD (7 - c) = true ∧ p = (px0 + c, py0 + r) := by
  induction rows generalizing py0 with
  | nil => simp [spritePixels]
  | cons row rows ih =>
    rw [spritePixels, List.mem_append, mem_rowPixels, ih]
    constructor
    · rintro (⟨c, h1, h2, rfl⟩ | ⟨r, c, h1, h2, h3, rfl⟩)
      · exact ⟨0, c, by simp, h1, by simpa using h2, rfl⟩
      · exact ⟨r + 1, c, by simpa using h1, h2, by simpa using h3, by simp [Nat.add_assoc, Nat.add_comm 1 r]⟩
    · rintro ⟨r, c, h1, h2, h3, rfl⟩
      cases r with
      | zero => exact .inl ⟨c, h2, by simpa using h3, rfl⟩
      | succ r =>
        exact .inr ⟨r, c, by simpa using h1, h2, by simpa using h3, by simp [Nat.add_assoc, Nat.add_comm 1 r]⟩

/-- A sprite names no pixel twice. -/
theorem spritePixels_nodup (px0 py0 : Nat) (rows : List Byte) : (spritePixels px0 py0 rows).Nodup := by
  induction rows generalizing py0 with
  | nil => simp [spritePixels]
  | cons row rows ih =>
    rw [spritePixels, List.nodup_append]
    refine ⟨?_, ih _, ?_⟩
    · refine (List.Nodup.filter _ List.nodup_range).map ?_
      intro a b h
      simpa using h
    · intro p hp q hq hpq
      obtain ⟨c, -, -, rfl⟩ := mem_rowPixels.1 hp
      obtain ⟨r, c', -, -, -, rfl⟩ := mem_spritePixels.1 hq
      simp only [Prod.mk.injEq] at hpq
      omega

/-! ## Keys -/

/-- Some key is pressed exactly when there is a first one. -/
theorem State.firstKey_isSome (s : State) : s.firstKey.isSome = s.anyKey := by
  simp [State.firstKey, State.anyKey]

theorem State.pressed_inRange (s : State) (v : Byte) (h : v.toNat < 16) :
    s.pressed v = some (s.key[v.toNat]) := by
  simp [State.pressed, h]

theorem State.pressed_outOfRange (s : State) (v : Byte) (h : 16 ≤ v.toNat) :
    s.pressed v = match s.cfg.keyOor with | .fault => none | .notPressed => some false := by
  have : s.key.toList[v.toNat]? = none := by simp [h]
  cases hc : s.cfg.keyOor <;> simp [State.pressed, this, hc]

/-! ## The random byte -/

theorem draw8_toNat (raw nn : Byte) : (draw8 raw nn).toNat = raw.toNat % (nn.toNat + 1) := by
  have h1 := nn.isLt
  have h2 : raw.toNat % (nn.toNat + 1) < nn.toNat + 1 := Nat.mod_lt _ (Nat.succ_pos _)
  simp only [draw8, BitVec.toNat_ofNat]
  rw [Nat.mod_eq_of_lt]; omega

end Sys2Proof.Machine
end

