-- ==== Sys2Proof/Laws/Memory.lean ====
section
/-! SUPPORT. Memory: read after write, and that every operation keeps the canonical form. -/

namespace Sys2Proof.Machine

/-! ## Reading back -/

theorem Memory.lookup_insert_ne {cs : List Host.Cell} {a b : Nat} (h : b ≠ a) (v : Byte) :
    Memory.lookup (Memory.insert cs a v) b = Memory.lookup cs b := by
  induction cs with
  | nil => simp only [Memory.insert]; split <;> simp [Memory.lookup, h.symm]
  | cons c cs ih =>
    obtain ⟨k, x⟩ := c
    simp only [Memory.insert]
    split
    · split <;> simp [Memory.lookup, h.symm]
    · split
      · subst_vars; split <;> simp [Memory.lookup, h.symm]
      · simp [Memory.lookup, ih]

/-- Below the addresses of a canonical list everything reads as unlisted. -/
theorem Memory.lookup_below {cs : List Host.Cell} {lo a : Nat} (hw : Memory.wfFrom lo cs = true) (h : a < lo) :
    Memory.lookup cs a = Memory.unlisted := by
  induction cs generalizing lo with
  | nil => rfl
  | cons c cs ih =>
    obtain ⟨k, x⟩ := c
    simp only [Memory.wfFrom, Bool.and_eq_true, decide_eq_true_eq] at hw
    rw [Memory.lookup, if_neg (by omega)]
    exact ih hw.2 (by omega)

theorem Memory.lookup_insert_self {cs : List Host.Cell} {lo a : Nat} (hw : Memory.wfFrom lo cs = true) (v : Byte) :
    Memory.lookup (Memory.insert cs a v) a = v := by
  induction cs generalizing lo with
  | nil => simp only [Memory.insert]; split <;> simp_all [Memory.lookup]
  | cons c cs ih =>
    obtain ⟨k, x⟩ := c
    simp only [Memory.wfFrom, Bool.and_eq_true, decide_eq_true_eq] at hw
    simp only [Memory.insert]
    split
    · split
      · rename_i h1 h2
        rw [Memory.lookup, if_neg (by omega), h2]
        exact Memory.lookup_below hw.2 (by omega)
      · simp [Memory.lookup]
    · split
      · split
        · rename_i h1 h2 h3
          subst h2
          rw [h3]; exact Memory.lookup_below hw.2 (by omega)
        · simp [Memory.lookup]
      · rename_i h1 h2
        rw [Memory.lookup, if_neg (by omega)]
        exact ih hw.2

/-- A write leaves every other byte alone. -/
theorem Memory.get_set_ne (m : Memory) {a b : Nat} (h : b ≠ a) (v : Byte) : (m.set a v).get b = m.get b :=
  Memory.lookup_insert_ne h v

/-- A read after a write to the same address gives the byte written. -/
theorem Memory.get_set_self {m : Memory} (hw : m.wf = true) (a : Nat) (v : Byte) : (m.set a v).get a = v :=
  Memory.lookup_insert_self hw v

/-! ## The canonical form -/

theorem Memory.wfFrom_mono {cs : List Host.Cell} {lo lo' : Nat} (h : lo' ≤ lo) (hw : Memory.wfFrom lo cs = true) :
    Memory.wfFrom lo' cs = true := by
  cases cs with
  | nil => rfl
  | cons c cs =>
    obtain ⟨k, x⟩ := c
    simp only [Memory.wfFrom, Bool.and_eq_true, decide_eq_true_eq] at hw ⊢
    exact ⟨⟨⟨by omega, hw.1.1.2⟩, hw.1.2⟩, hw.2⟩

theorem Memory.wfFrom_insert {cs : List Host.Cell} {lo a : Nat} (hw : Memory.wfFrom lo cs = true) (v : Byte)
    (h1 : lo ≤ a) (h2 : a < memSize) : Memory.wfFrom lo (Memory.insert cs a v) = true := by
  induction cs generalizing lo with
  | nil =>
    simp only [Memory.insert]
    split
    · rfl
    · simp_all [Memory.wfFrom]
  | cons c cs ih =>
    obtain ⟨k, x⟩ := c
    have hw' := hw
    simp only [Memory.wfFrom, Bool.and_eq_true, decide_eq_true_eq] at hw'
    simp only [Memory.insert]
    split
    · split
      · exact hw
      · simp only [Memory.wfFrom, Bool.and_eq_true, decide_eq_true_eq]
        exact ⟨⟨⟨h1, h2⟩, by simpa using ‹_›⟩, ⟨⟨⟨by omega, hw'.1.1.2⟩, hw'.1.2⟩, hw'.2⟩⟩
    · split
      · subst_vars
        split
        · exact Memory.wfFrom_mono (by omega) hw'.2
        · simp only [Memory.wfFrom, Bool.and_eq_true, decide_eq_true_eq]
          exact ⟨⟨⟨h1, h2⟩, by simpa using ‹_›⟩, hw'.2⟩
      · simp only [Memory.wfFrom, Bool.and_eq_true, decide_eq_true_eq]
        exact ⟨hw'.1, ih hw'.2 (by omega)⟩

theorem Memory.set_wf {m : Memory} (hw : m.wf = true) {a : Nat} (h : a < memSize) (v : Byte) :
    (m.set a v).wf = true :=
  Memory.wfFrom_insert hw v (Nat.zero_le a) h

theorem Memory.empty_wf : Memory.empty.wf = true := rfl

theorem Memory.writeBytes_wf (bs : List Byte) {m : Memory} (hw : m.wf = true) {a : Nat}
    (h : bs = [] ∨ a + bs.length ≤ memSize) : (m.writeBytes a bs).wf = true := by
  induction bs generalizing m a with
  | nil => exact hw
  | cons b bs ih =>
    have h' : a + (bs.length + 1) ≤ memSize := by simpa using h
    exact ih (Memory.set_wf hw (by omega) b) (.inr (by omega))

/-! ## Runs of bytes -/

@[simp] theorem Memory.readBytes_length (m : Memory) (a len : Nat) : (m.readBytes a len).length = len := by
  induction len generalizing a with
  | zero => rfl
  | succ n ih => simp [Memory.readBytes, ih]

theorem Memory.readBytes_getD (m : Memory) (a len j : Nat) (d : Byte) :
    (m.readBytes a len).getD j d = if j < len then m.get (a + j) else d := by
  induction len generalizing a j with
  | zero => simp [Memory.readBytes]
  | succ n ih =>
    cases j with
    | zero => simp [Memory.readBytes]
    | succ j =>
      have := ih (a + 1) j
      simp only [Memory.readBytes, List.getD_cons_succ, this, Nat.add_lt_add_iff_right]
      rw [show a + 1 + j = a + (j + 1) by omega]

/-- A run of writes leaves every byte outside it alone. -/
theorem Memory.get_writeBytes_ne (bs : List Byte) (m : Memory) {a b : Nat} (h : b < a ∨ a + bs.length ≤ b) :
    (m.writeBytes a bs).get b = m.get b := by
  induction bs generalizing m a with
  | nil => rfl
  | cons x bs ih =>
    simp only [List.length_cons] at h
    rw [Memory.writeBytes, ih _ (by omega), Memory.get_set_ne _ (by omega)]

/-- A run of writes, read back. -/
theorem Memory.get_writeBytes (bs : List Byte) {m : Memory} (hw : m.wf = true) {a : Nat}
    (hr : bs = [] ∨ a + bs.length ≤ memSize) {j : Nat} (h : j < bs.length) (d : Byte) :
    (m.writeBytes a bs).get (a + j) = bs.getD j d := by
  induction bs generalizing m a j with
  | nil => simp at h
  | cons x bs ih =>
    have hr' : a + (bs.length + 1) ≤ memSize := by simpa using hr
    rw [Memory.writeBytes]
    cases j with
    | zero =>
      rw [Memory.get_writeBytes_ne _ _ (by omega), Nat.add_zero, Memory.get_set_self hw]
      rfl
    | succ j =>
      have := ih (Memory.set_wf hw (show a < memSize by omega) x) (a := a + 1) (.inr (by omega))
        (j := j) (by simpa using h)
      rw [show a + (j + 1) = a + 1 + j by omega, this]
      rfl

end Sys2Proof.Machine
end

