-- ==== Sys2Proof/Laws/Tick.lean ====
section
/-! SUPPORT. The stages of the tick: which branch a state takes, and what dispatch runs. -/

namespace Sys2Proof.Machine

/-- The decrement as arithmetic (40_pipeline.md R104). -/
theorem timerDown_toNat (t : Byte) : (timerDown t).toNat = t.toNat - 1 := by
  revert t; decide

theorem anyKey_iff (s : State) : s.anyKey = true ↔ ∃ k : Fin 16, s.key[k.val] = true := by
  simp only [State.anyKey, List.any_eq_true, id]
  constructor
  · rintro ⟨b, hb, rfl⟩
    obtain ⟨j, hj, h⟩ := List.getElem_of_mem hb
    exact ⟨⟨j, by simpa using hj⟩, by simpa using h⟩
  · rintro ⟨k, hk⟩
    exact ⟨true, by rw [← hk]; exact Vector.mem_toList_iff.2 (Vector.getElem_mem _), rfl⟩

/-- The fetched word as arithmetic, big-endian (20_memory.md R55). -/
theorem State.fetchWord_toNat (s : State) :
    s.fetchWord.toNat = (s.mem.get s.pc.toNat).toNat * 256 + (s.mem.get (s.pc.toNat + 1)).toNat :=
  wordOfBytes_toNat _ _

theorem State.fetchFaults_eq_true {s : State} : s.fetchFaults = true ↔ memSize ≤ s.pc.toNat + 1 := by
  simp only [State.fetchFaults, decide_eq_true_eq]

theorem State.fetchFaults_eq_false {s : State} : s.fetchFaults = false ↔ s.pc.toNat + 1 < memSize := by
  simp only [State.fetchFaults, decide_eq_false_iff_not, Nat.not_le]

/-- Decoding two bytes is decoding their word. -/
theorem decode_pair (hi lo : Byte) (rest : List Byte) :
    decode (hi :: lo :: rest) =
      match decodeWord (wordOfBytes hi lo) with
      | .ok i => .ok (i, rest)
      | .error e => .error e := rfl

/-- Dispatch runs what the fetched word decodes to. -/
theorem dispatch_fetch (f : Instr → State → Result) (s t : State) :
    dispatch f s.fetchBytes t =
      match decodeWord s.fetchWord with
      | .ok i => f i t
      | .error _ => execUnimpl t := by
  simp only [dispatch, State.fetchBytes, Memory.readBytes, decode_pair, State.fetchWord]
  cases decodeWord (wordOfBytes (s.mem.get s.pc.toNat) (s.mem.get (s.pc.toNat + 1))) <;> rfl

/-- What a tick can be, once and for all: idle under a fault, a paused tick, a waiting tick, or a fetch. -/
theorem step_cases (s : State) :
    (s.fault ≠ .none ∧ step s = .next s) ∨
    (s.fault = .none ∧ s.run = .paused ∧ step s = pausedTick s) ∨
    (s.fault = .none ∧ s.run = .running ∧ s.waitKey = true ∧ s.anyKey = false ∧ step s = .next s.timerStage) ∨
    (s.fault = .none ∧ s.run = .running ∧ (s.waitKey = true → s.anyKey = true) ∧
      step s = fetchExecute exec s.timerStage.released) := by
  unfold step tick
  by_cases hf : s.fault = .none
  · rw [if_neg (by simpa using hf)]
    cases hr : s.run with
    | paused => exact .inr (.inl ⟨hf, rfl, rfl⟩)
    | running =>
      have hk : s.timerStage.anyKey = s.anyKey := rfl
      simp only [runTick, State.stillWaiting, State.timerStage_waitKey, hk]
      cases hw : s.waitKey <;> cases ha : s.anyKey <;> simp [hf]
  · exact .inl ⟨hf, if_pos hf⟩

/-- A fetching tick, from a state of the wait stage's making. -/
theorem fetchExecute_cases (s : State) :
    (s.fetchFaults = true ∧ fetchExecute exec s = .next (s.raiseAt .fetchOor s.pc.toNat s.pc)) ∨
    (s.fetchFaults = false ∧ ∃ i, decodeWord s.fetchWord = .ok i ∧
      fetchExecute exec s = rolledBack (exec i s.fetched)) ∨
    (s.fetchFaults = false ∧ ∃ e, decodeWord s.fetchWord = .error e ∧
      fetchExecute exec s = rolledBack (execUnimpl s.fetched)) := by
  unfold fetchExecute
  cases hf : s.fetchFaults with
  | true => exact .inl ⟨rfl, rfl⟩
  | false =>
    rw [if_neg (by simp), dispatch_fetch]
    cases hd : decodeWord s.fetchWord with
    | ok i => exact .inr (.inl ⟨rfl, i, rfl, rfl⟩)
    | error e => exact .inr (.inr ⟨rfl, e, rfl, rfl⟩)

theorem rolledBack_next {r : Result} {t : State} (h : rolledBack r = .next t) :
    ∃ u, r = .next u ∧ t = u.rollBack := by
  cases r with
  | next u => exact ⟨u, rfl, by simpa [rolledBack, eq_comm] using h⟩
  | fault f => cases f
  | refused f => simp [rolledBack] at h

/-- Two displays of one shape whose cells are alike are the same. -/
theorem Display.ext_cells {d e : Display} {w h : Nat} (hd : d.shaped w h) (he : e.shaped w h)
    (hc : ∀ px py, px < w → py < h → d.cell px py = e.cell px py) : d = e := by
  cases d with | mk d =>
  cases e with | mk e =>
  simp only [Display.shaped] at hd he
  congr 1
  apply List.ext_getElem (hd.1.trans he.1.symm)
  intro py h1 h2
  have hwd := hd.2 _ (List.getElem_mem h1)
  have hwe := he.2 _ (List.getElem_mem h2)
  apply List.ext_getElem (hwd.trans hwe.symm)
  intro px h3 h4
  have := hc px py (hwd ▸ h3) (hd.1 ▸ h1)
  simpa [Display.cell, List.getD_eq_getElem, h1, h2, h3, h4] using this

end Sys2Proof.Machine
end

