-- ==== Sys2Proof/Laws/Exec.lean ====
section
/-! SUPPORT. The shared operations of the meanings: what each can answer, said once, and what `exec` can be. -/

namespace Sys2Proof.Machine

/-! ## Storing at I -/

/-- A store that fits, or of no byte. -/
theorem storeAtI_fits {s : State} {bs : List Byte} {f : State → State}
    (h : bs.length = 0 ∨ s.i.toNat + bs.length ≤ memSize) :
    storeAtI s bs f = .next (f { s with mem := s.mem.writeBytes s.i.toNat bs }) := by
  rw [storeAtI, outOfRange_none.2 h]

/-- A store that reaches MEM_SIZE (43_index_memory.md R184, R186). -/
theorem storeAtI_raises {s : State} {bs : List Byte} {f : State → State}
    (h : ¬ (bs.length = 0 ∨ s.i.toNat + bs.length ≤ memSize)) :
    storeAtI s bs f = .next (s.raise .storeOor (max s.i.toNat memSize)) := by
  rw [storeAtI, outOfRange_some.2 ⟨h, rfl⟩]

theorem bcdBytes_length (c : Config) (v : Byte) : (bcdBytes c v).length = bcdCount c v := by
  have : bcdCount c v ≤ 3 := by unfold bcdCount; cases c.bcdZero <;> (repeat' split) <;> decide
  simpa [bcdBytes] using this

/-! ## Loading registers -/

theorem execLoadRegs_fits {x : Reg} {s : State} (h : s.i.toNat + x.val < memSize) :
    execLoadRegs x s = .next (s.loadV (s.mem.readBytes s.i.toNat (x.val + 1))) := by
  rw [execLoadRegs, outOfRange_none.2 (.inr h)]

theorem execLoadRegs_raises {x : Reg} {s : State} (h : memSize ≤ s.i.toNat + x.val) :
    execLoadRegs x s = .next (s.raise .loadOor (max s.i.toNat memSize)) := by
  rw [execLoadRegs, outOfRange_some.2 ⟨by omega, rfl⟩]

/-! ## Drawing -/

@[simp] theorem State.composite_VF (s : State) (ps : List (Nat × Nat)) :
    (s.composite ps).V VF = drawFlag s.cfg ps (s.V VF) := by
  simp [State.composite]

/-- The cells a draw flips lie on the display (44_display.md R204). -/
theorem edge_inside {c : Config} (hw : 1 ≤ c.dispW) (hh : 1 ≤ c.dispH) {ps qs : List (Nat × Nat)}
    (h : edge c ps = .ok qs) : ∀ p ∈ qs, p.1 < c.dispW ∧ p.2 < c.dispH := by
  unfold edge at h
  split at h
  · split at h
    · cases h
    · rename_i hn
      injection h with h
      subst h
      intro p hp
      simpa [onDisplay] using List.find?_eq_none.1 hn p hp
  · injection h with h
    subst h
    intro p hp
    simpa [onDisplay] using (List.mem_filter.1 hp).2
  · injection h with h
    subst h
    intro p hp
    obtain ⟨q, -, rfl⟩ := List.mem_map.1 hp
    exact ⟨Nat.mod_lt _ hw, Nat.mod_lt _ hh⟩

/-- What Dxyn can be: LOAD_OOR, DRAW_OOR, or the composition of the pixels `edge` keeps. -/
theorem execDrw_cases (x y : Reg) (n : Fin 16) (s : State) :
    (¬ (n.val = 0 ∨ s.i.toNat + n.val ≤ memSize) ∧
      execDrw x y n s = .next (s.raise .loadOor (max s.i.toNat memSize))) ∨
    ((n.val = 0 ∨ s.i.toNat + n.val ≤ memSize) ∧ ∃ info,
      edge s.cfg (spritePixels (s.V x).toNat (s.V y).toNat (s.mem.readBytes s.i.toNat n.val)) = .error info ∧
      execDrw x y n s = .next (s.raise .drawOor info)) ∨
    ((n.val = 0 ∨ s.i.toNat + n.val ≤ memSize) ∧ ∃ drawn,
      edge s.cfg (spritePixels (s.V x).toNat (s.V y).toNat (s.mem.readBytes s.i.toNat n.val)) = .ok drawn ∧
      execDrw x y n s = .next (s.composite drawn)) := by
  by_cases h : n.val = 0 ∨ s.i.toNat + n.val ≤ memSize
  · rw [execDrw, outOfRange_none.2 h]
    cases he : edge s.cfg (spritePixels (s.V x).toNat (s.V y).toNat (s.mem.readBytes s.i.toNat n.val)) with
    | error info => exact .inr (.inl ⟨h, info, rfl, rfl⟩)
    | ok drawn => exact .inr (.inr ⟨h, drawn, rfl, rfl⟩)
  · exact .inl ⟨h, by rw [execDrw, outOfRange_some.2 ⟨h, rfl⟩]⟩

/-! ## Keys -/

/-- The lowest pressed key, when `k` is it (45_timers_input.md R228). -/
theorem State.firstKey_eq_some {s : State} {k : Fin 16} (hk : s.key[k.val] = true)
    (hm : ∀ j : Fin 16, s.key[j.val] = true → k ≤ j) : s.firstKey = some k.val := by
  unfold State.firstKey
  rw [List.findIdx?_eq_some_iff_getElem]
  refine ⟨by simp, by simpa using hk, fun j hj h => ?_⟩
  have hkj : k.val ≤ j := hm ⟨j, by omega⟩ (by simpa using h)
  omega

theorem State.firstKey_eq_none {s : State} (h : ∀ j : Fin 16, s.key[j.val] = false) : s.firstKey = none := by
  unfold State.firstKey
  rw [List.findIdx?_eq_none_iff]
  intro b hb
  obtain ⟨j, hj, rfl⟩ := List.getElem_of_mem hb
  simpa using h ⟨j, by simpa using hj⟩

/-- `pressed(v)` has a value, or `KEY_OOR = fault` applies (45_timers_input.md R220). -/
theorem State.pressed_cases (s : State) (v : Byte) :
    (∃ b, s.pressed v = some b) ∨ (s.pressed v = none ∧ s.cfg.keyOor = .fault ∧ 16 ≤ v.toNat) := by
  by_cases h : v.toNat < 16
  · exact .inl ⟨_, s.pressed_inRange v h⟩
  · rw [s.pressed_outOfRange v (by omega)]
    cases s.cfg.keyOor
    · exact .inr ⟨rfl, rfl, by omega⟩
    · exact .inl ⟨_, rfl⟩

/-! ## Every instruction -/

/-- Every instruction either completes without touching the latch, or raises one fault through `State.raise`. -/
theorem exec_outcome (i : Instr) (s : State) :
    (∃ t, exec i s = .next t ∧ t.fault = s.fault ∧ t.faultInfo = s.faultInfo) ∨
    (∃ c info, c ≠ .none ∧ c ≠ .fetchOor ∧ exec i s = .next (s.raise c info)) := by
  cases i with
  | drw x y n =>
    rcases execDrw_cases x y n s with ⟨-, h⟩ | ⟨-, info, -, h⟩ | ⟨-, drawn, -, h⟩
    · exact .inr ⟨_, _, by decide, by decide, h⟩
    · exact .inr ⟨_, _, by decide, by decide, h⟩
    · exact .inl ⟨_, h, rfl, rfl⟩
  | skp x =>
    rcases s.pressed_cases (s.V x) with ⟨b, h⟩ | ⟨h, -⟩
    · exact .inl ⟨s.skipIf b, by show execSkp x s = _; rw [execSkp, h], by simp, by simp⟩
    · exact .inr ⟨.keyOor, (s.V x).toNat, by decide, by decide, by show execSkp x s = _; rw [execSkp, h]⟩
  | sknp x =>
    rcases s.pressed_cases (s.V x) with ⟨b, h⟩ | ⟨h, -⟩
    · exact .inl ⟨s.skipIf (!b), by show execSknp x s = _; rw [execSknp, h], by simp, by simp⟩
    · exact .inr ⟨.keyOor, (s.V x).toNat, by decide, by decide, by show execSknp x s = _; rw [execSknp, h]⟩
  | ldVxK x =>
    left
    cases h : s.firstKey with
    | some k => exact ⟨s.setV x (BitVec.ofNat 8 k), by show execLdVxK x s = _; rw [execLdVxK, h], rfl, rfl⟩
    | none => exact ⟨{ s with waitKey := true }, by show execLdVxK x s = _; rw [execLdVxK, h], rfl, rfl⟩
  | ldB x =>
    by_cases h : (bcdBytes s.cfg (s.V x)).length = 0 ∨ s.i.toNat + (bcdBytes s.cfg (s.V x)).length ≤ memSize
    · exact .inl ⟨_, (show execLdB x s = _ from storeAtI_fits h), rfl, rfl⟩
    · exact .inr ⟨.storeOor, max s.i.toNat memSize, by decide, by decide, show execLdB x s = _ from storeAtI_raises h⟩
  | storeRegs x =>
    by_cases h : (s.regsUpTo x).length = 0 ∨ s.i.toNat + (s.regsUpTo x).length ≤ memSize
    · exact .inl ⟨_, storeAtI_fits h, rfl, rfl⟩
    · exact .inr ⟨.storeOor, max s.i.toNat memSize, by decide, by decide, storeAtI_raises h⟩
  | loadRegs x =>
    by_cases h : s.i.toNat + x.val < memSize
    · exact .inl ⟨_, execLoadRegs_fits h, rfl, rfl⟩
    · exact .inr ⟨_, _, by decide, by decide, execLoadRegs_raises (by omega)⟩
  | seImm x nn => exact .inl ⟨_, rfl, by simp, by simp⟩
  | sneImm x nn => exact .inl ⟨_, rfl, by simp, by simp⟩
  | seReg x y => exact .inl ⟨_, rfl, by simp, by simp⟩
  | sneReg x y => exact .inl ⟨_, rfl, by simp, by simp⟩
  | _ => exact .inl ⟨_, rfl, rfl, rfl⟩

end Sys2Proof.Machine
end

