-- ==== Sys2Proof/Laws/PerInstr.lean ====
section
/-! SUPPORT. Per instruction: the number of the row of the opcode map (30_encoding.md R78) an instruction's word
belongs to, and that the encoded word selects that row. -/

namespace Sys2Proof.Laws.RowOf

/-- The number of an instruction's row in R78, counted from 0. -/
def row : Instr → Nat
  | .clrscr => 0 | .jp _ => 1 | .seImm _ _ => 2 | .sneImm _ _ => 3 | .seReg _ _ => 4 | .ldImm _ _ => 5
  | .addImm _ _ => 6 | .ldReg _ _ => 7 | .orReg _ _ => 8 | .andReg _ _ => 9 | .xorReg _ _ => 10
  | .addReg _ _ => 11 | .subReg _ _ => 12 | .shr _ _ => 13 | .subn _ _ => 14 | .shl _ _ => 15
  | .sneReg _ _ => 16 | .ldI _ => 17 | .jpV0 _ => 18 | .rnd _ _ => 19 | .drw _ _ _ => 20 | .skp _ => 21
  | .sknp _ => 22 | .ldVxDt _ => 23 | .ldVxK _ => 24 | .ldDtVx _ => 25 | .ldStVx _ => 26 | .addI _ => 27
  | .ldF _ => 28 | .ldB _ => 29 | .storeRegs _ => 30 | .loadRegs _ => 31

/-- The instruction's word selects the instruction's row. -/
def Statement (i : Instr) : Prop :=
  ∃ r, opcodeMap[row i]? = some r ∧ r.selects (encode i) = true

/-- Format `Onnn`. -/
theorem nnn_row (op : Nat) (b : Word) (h : op < 16) (hb : b.toNat = op * 4096) (nnn : Addr12) :
    OpcodeRow.selects ⟨b, 0xF000⟩ (wordNNN op nnn) = true := by
  have := nnn.isLt
  exact selects_major (by rw [wordNNN_toNat op nnn h]; omega)

/-- Format `Oxnn`. -/
theorem xnn_row (op : Nat) (b : Word) (h : op < 16) (hb : b.toNat = op * 4096) (x : Reg) (nn : Byte) :
    OpcodeRow.selects ⟨b, 0xF000⟩ (wordXNN op x nn) = true := by
  have := x.isLt; have := nn.isLt
  exact selects_major (by rw [wordXNN_toNat op x nn h]; omega)

/-- Format `OxSS`. -/
theorem x_row (op : Nat) (b : Word) (ss : Byte) (h : op < 16) (hb : b.toNat = op * 4096 + ss.toNat) (x : Reg) :
    OpcodeRow.selects ⟨b, 0xF0FF⟩ (wordXNN op x ss) = true := by
  have := x.isLt; have := ss.isLt
  exact selects_majorByte (by rw [wordXNN_toNat op x ss h]; omega)

/-- Format `OxyS`. -/
theorem xy_row (op : Nat) (b : Word) (n : Nat) (h : op < 16) (hn : n < 16) (hb : b.toNat = op * 4096 + n)
    (x y : Reg) : OpcodeRow.selects ⟨b, 0xF00F⟩ (wordXYN op x y n) = true := by
  have := x.isLt; have := y.isLt
  exact selects_majorLow (by rw [wordXYN_toNat op x y n h hn]; omega)

/-- Format `Oxyn`. -/
theorem xyn_row (op : Nat) (b : Word) (h : op < 16) (hb : b.toNat = op * 4096) (x y : Reg) (n : Fin 16) :
    OpcodeRow.selects ⟨b, 0xF000⟩ (wordXYN op x y n.val) = true := by
  have := x.isLt; have := y.isLt; have := n.isLt
  exact selects_major (by rw [wordXYN_toNat op x y n.val h n.isLt]; omega)

theorem clrscr : Statement .clrscr := ⟨_, rfl, rfl⟩
theorem jp (nnn : Addr12) : Statement (.jp nnn) := ⟨_, rfl, nnn_row 1 _ (by decide) rfl nnn⟩
theorem seImm (x : Reg) (nn : Byte) : Statement (.seImm x nn) := ⟨_, rfl, xnn_row 3 _ (by decide) rfl x nn⟩
theorem sneImm (x : Reg) (nn : Byte) : Statement (.sneImm x nn) := ⟨_, rfl, xnn_row 4 _ (by decide) rfl x nn⟩
theorem seReg (x y : Reg) : Statement (.seReg x y) := ⟨_, rfl, xy_row 5 _ 0 (by decide) (by decide) rfl x y⟩
theorem ldImm (x : Reg) (nn : Byte) : Statement (.ldImm x nn) := ⟨_, rfl, xnn_row 6 _ (by decide) rfl x nn⟩
theorem addImm (x : Reg) (nn : Byte) : Statement (.addImm x nn) := ⟨_, rfl, xnn_row 7 _ (by decide) rfl x nn⟩
theorem ldReg (x y : Reg) : Statement (.ldReg x y) := ⟨_, rfl, xy_row 8 _ 0 (by decide) (by decide) rfl x y⟩
theorem orReg (x y : Reg) : Statement (.orReg x y) := ⟨_, rfl, xy_row 8 _ 1 (by decide) (by decide) rfl x y⟩
theorem andReg (x y : Reg) : Statement (.andReg x y) := ⟨_, rfl, xy_row 8 _ 2 (by decide) (by decide) rfl x y⟩
theorem xorReg (x y : Reg) : Statement (.xorReg x y) := ⟨_, rfl, xy_row 8 _ 3 (by decide) (by decide) rfl x y⟩
theorem addReg (x y : Reg) : Statement (.addReg x y) := ⟨_, rfl, xy_row 8 _ 4 (by decide) (by decide) rfl x y⟩
theorem subReg (x y : Reg) : Statement (.subReg x y) := ⟨_, rfl, xy_row 8 _ 5 (by decide) (by decide) rfl x y⟩
theorem shr (x y : Reg) : Statement (.shr x y) := ⟨_, rfl, xy_row 8 _ 6 (by decide) (by decide) rfl x y⟩
theorem subn (x y : Reg) : Statement (.subn x y) := ⟨_, rfl, xy_row 8 _ 7 (by decide) (by decide) rfl x y⟩
theorem shl (x y : Reg) : Statement (.shl x y) := ⟨_, rfl, xy_row 8 _ 14 (by decide) (by decide) rfl x y⟩
theorem sneReg (x y : Reg) : Statement (.sneReg x y) := ⟨_, rfl, xy_row 9 _ 0 (by decide) (by decide) rfl x y⟩
theorem ldI (nnn : Addr12) : Statement (.ldI nnn) := ⟨_, rfl, nnn_row 10 _ (by decide) rfl nnn⟩
theorem jpV0 (nnn : Addr12) : Statement (.jpV0 nnn) := ⟨_, rfl, nnn_row 11 _ (by decide) rfl nnn⟩
theorem rnd (x : Reg) (nn : Byte) : Statement (.rnd x nn) := ⟨_, rfl, xnn_row 12 _ (by decide) rfl x nn⟩
theorem drw (x y : Reg) (n : Fin 16) : Statement (.drw x y n) := ⟨_, rfl, xyn_row 13 _ (by decide) rfl x y n⟩
theorem skp (x : Reg) : Statement (.skp x) := ⟨_, rfl, x_row 14 _ _ (by decide) rfl x⟩
theorem sknp (x : Reg) : Statement (.sknp x) := ⟨_, rfl, x_row 14 _ _ (by decide) rfl x⟩
theorem ldVxDt (x : Reg) : Statement (.ldVxDt x) := ⟨_, rfl, x_row 15 _ _ (by decide) rfl x⟩
theorem ldVxK (x : Reg) : Statement (.ldVxK x) := ⟨_, rfl, x_row 15 _ _ (by decide) rfl x⟩
theorem ldDtVx (x : Reg) : Statement (.ldDtVx x) := ⟨_, rfl, x_row 15 _ _ (by decide) rfl x⟩
theorem ldStVx (x : Reg) : Statement (.ldStVx x) := ⟨_, rfl, x_row 15 _ _ (by decide) rfl x⟩
theorem addI (x : Reg) : Statement (.addI x) := ⟨_, rfl, x_row 15 _ _ (by decide) rfl x⟩
theorem ldF (x : Reg) : Statement (.ldF x) := ⟨_, rfl, x_row 15 _ _ (by decide) rfl x⟩
theorem ldB (x : Reg) : Statement (.ldB x) := ⟨_, rfl, x_row 15 _ _ (by decide) rfl x⟩
theorem storeRegs (x : Reg) : Statement (.storeRegs x) := ⟨_, rfl, x_row 15 _ _ (by decide) rfl x⟩
theorem loadRegs (x : Reg) : Statement (.loadRegs x) := ⟨_, rfl, x_row 15 _ _ (by decide) rfl x⟩

end Sys2Proof.Laws.RowOf
end

