-- ==== Sys2Proof/Laws/Run.lean ====
section
/-! SUPPORT. Runs, one event at a time, and what a halted, faulted or ended state is. -/

namespace Sys2Proof.Machine

/-- A halted state, condition by condition (70_reset_and_hazards.md R286). -/
theorem State.halted_iff (s : State) : s.halted = true ↔
    s.fault = .none ∧ s.run = .running ∧ s.waitKey = false ∧ s.pc.toNat + 1 < memSize ∧
      s.fetchWord = 0x1000 ||| s.pc := by
  simp only [State.halted, Bool.and_eq_true, beq_iff_eq, Bool.not_eq_true', State.fetchFaults_eq_false, and_assoc]

theorem State.faulted_iff (s : State) : s.faulted = true ↔ s.fault ≠ .none := by
  simp [State.faulted]

theorem State.ended_iff (s : State) : s.ended = true ↔ s.halted = true ∨ s.faulted = true := by
  simp [State.ended]

/-- A key event of a run always has a transition. -/
@[simp] theorem hostKey_fin (k : Fin 16) (b : Bool) (s : State) :
    hostKey k.val b s = .next { s with key := s.key.setIfInBounds k.val b } := by
  rw [hostKey, if_pos k.isLt]

theorem react_key (k : Fin 16) (b : Bool) (s : State) :
    react (RunEvent.key k b).toEvent s = .next { s with key := s.key.setIfInBounds k.val b } := by
  cases b <;> exact hostKey_fin k _ s

@[simp] theorem runFrom_nil (n : Nat) (s : State) : runFrom n [] s = .going s := rfl

@[simp] theorem runFrom_key (n : Nat) (k : Fin 16) (b : Bool) (es : List RunEvent) (s : State) :
    runFrom n (.key k b :: es) s = runFrom n es { s with key := s.key.setIfInBounds k.val b } := by
  rw [runFrom, hostKey_fin]

/-- A tick of a run, given the state it leaves: the end, or on with one tick more. -/
theorem runFrom_tick (n : Nat) (es : List RunEvent) {s t : State} (h : step s = .next t) :
    runFrom n (.tick :: es) s = if t.ended then .ended (n + 1) t else runFrom (n + 1) es t := by
  rw [runFrom, h]

/-- Events of the core, one after the other. -/
theorem runEvents_append (es fs : List Event) (s : State) :
    runEvents (es ++ fs) s =
      match runEvents es s with
      | .next t => runEvents fs t
      | .fault r => .fault r
      | .refused r => .refused r := by
  induction es generalizing s with
  | nil => rfl
  | cons e es ih =>
    rw [List.cons_append, runEvents, runEvents]
    cases react e s with
    | next u => exact ih u
    | fault r => rfl
    | refused r => rfl

end Sys2Proof.Machine
end

