-- ==== Sys2Proof/Tests/Slice0.lean ====
section
/-! SUPPORT. Tests. Expected results are those of spec/95_test_vectors.md (the id of the vector is named) or, for
words, those of the patterns of spec/30_encoding.md R73 and R78. The last part holds a witness for the hypotheses of
every statement that has any. -/

namespace Sys2Proof.Tests

open Sys2Proof Sys2Proof.Machine Sys2Proof.Claims

/-! ## Building a state, and one tick -/

/-- The power-on state with some registers set. -/
def core0 (vs : List (Reg × Byte)) : State := vs.foldl (fun s p => s.setV p.1 p.2) State.reset

/-- `s` with PC at `pc` and the word `w` there. -/
def place (s : State) (pc : Nat) (w : Word) : State :=
  { s.setPc pc with mem := s.mem.writeBytes pc [highByte w, lowByte w] }

/-- The state an answer carries. -/
def after : Result → Option State
  | .next t => some t
  | .fault _ => none
  | .refused _ => none

/-- One tick with `w` at 0x200. -/
def ran (s : State) (w : Word) : Option State := after (step (place s 0x200 w))

/-- `s` with `I` and bytes of memory at it. -/
def withI (s : State) (i : Word) (bs : List Byte) : State := { s with i := i, mem := s.mem.writeBytes i.toNat bs }

/-- `s` with keys pressed. -/
def withKeys (s : State) (ks : List Nat) : State :=
  { s with key := ks.foldl (fun m k => m.setIfInBounds k true) s.key }

/-- `s` with cells flipped. -/
def withCells (s : State) (ps : List (Nat × Nat)) : State := { s with pix := s.pix.toggleAll ps }

/-- `s` under other parameters. -/
def under (s : State) (f : Config → Config) : State := { s with cfg := f s.cfg }

/-- The cells that are on, row by row. -/
def lit (s : State) : List (Nat × Nat) :=
  (List.range s.cfg.dispH).flatMap fun py =>
    ((List.range s.cfg.dispW).filter fun px => s.pix.cell px py).map fun px => (px, py)

/-- What a fault leaves: cause, information, PC. -/
def latched (s : State) : FaultCause × Nat × Word := (s.fault, s.faultInfo, s.pc)

/-! ## WellFormed: a bad choice of each parameter is refused -/

theorem test_wf_default : Config.specDefault.wellFormed = true := by decide
theorem test_wf_loadAddr : { Config.specDefault with loadAddr := 0x1000 }.wellFormed = false := by decide
theorem test_wf_loadAddr_top : { Config.specDefault with loadAddr := 0xFFF }.wellFormed = true := by decide
theorem test_wf_font : { Config.specDefault with fontBase := 0xFFF, fontImage := [1, 2] }.wellFormed = false := by decide
theorem test_wf_dispW : { Config.specDefault with dispW := 0 }.wellFormed = false := by decide
theorem test_wf_dispH : { Config.specDefault with dispH := 0 }.wellFormed = false := by decide
theorem test_wf_onVal : { Config.specDefault with onVal := 0 }.wellFormed = false := by decide

/-! ## Decoding: a word of every row, written out from its pattern in R78 -/

theorem test_decode_00E0 : decode [0x00, 0xE0] = .ok (.clrscr, []) := rfl
theorem test_decode_1nnn : decode [0x12, 0x34] = .ok (.jp 0x234, []) := rfl
theorem test_decode_3xnn : decode [0x3A, 0x42] = .ok (.seImm 0xA 0x42, []) := rfl
theorem test_decode_4xnn : decode [0x4B, 0x24] = .ok (.sneImm 0xB 0x24, []) := rfl
theorem test_decode_5xy0 : decode [0x51, 0x20] = .ok (.seReg 1 2, []) := rfl
theorem test_decode_6xnn : decode [0x6A, 0x7F] = .ok (.ldImm 0xA 0x7F, []) := rfl
theorem test_decode_7xnn : decode [0x7C, 0xFE] = .ok (.addImm 0xC 0xFE, []) := rfl
theorem test_decode_8xy0 : decode [0x81, 0x20] = .ok (.ldReg 1 2, []) := rfl
theorem test_decode_8xy1 : decode [0x83, 0x41] = .ok (.orReg 3 4, []) := rfl
theorem test_decode_8xy2 : decode [0x85, 0x62] = .ok (.andReg 5 6, []) := rfl
theorem test_decode_8xy3 : decode [0x87, 0x83] = .ok (.xorReg 7 8, []) := rfl
theorem test_decode_8xy4 : decode [0x89, 0xA4] = .ok (.addReg 9 0xA, []) := rfl
theorem test_decode_8xy5 : decode [0x8B, 0xC5] = .ok (.subReg 0xB 0xC, []) := rfl
theorem test_decode_8xy6 : decode [0x8D, 0xE6] = .ok (.shr 0xD 0xE, []) := rfl
theorem test_decode_8xy7 : decode [0x8F, 0x07] = .ok (.subn 0xF 0, []) := rfl
theorem test_decode_8xyE : decode [0x81, 0x2E] = .ok (.shl 1 2, []) := rfl
theorem test_decode_9xy0 : decode [0x9D, 0x20] = .ok (.sneReg 0xD 2, []) := rfl
theorem test_decode_Annn : decode [0xA1, 0x23] = .ok (.ldI 0x123, []) := rfl
theorem test_decode_Bnnn : decode [0xB3, 0x0F] = .ok (.jpV0 0x30F, []) := rfl
theorem test_decode_Cxnn : decode [0xC3, 0x0F] = .ok (.rnd 3 0x0F, []) := rfl
theorem test_decode_Dxyn : decode [0xDE, 0xF1] = .ok (.drw 0xE 0xF 1, []) := rfl
theorem test_decode_Ex9E : decode [0xE2, 0x9E] = .ok (.skp 2, []) := rfl
theorem test_decode_ExA1 : decode [0xE3, 0xA1] = .ok (.sknp 3, []) := rfl
theorem test_decode_Fx07 : decode [0xF4, 0x07] = .ok (.ldVxDt 4, []) := rfl
theorem test_decode_Fx0A : decode [0xF5, 0x0A] = .ok (.ldVxK 5, []) := rfl
theorem test_decode_Fx15 : decode [0xF6, 0x15] = .ok (.ldDtVx 6, []) := rfl
theorem test_decode_Fx18 : decode [0xF7, 0x18] = .ok (.ldStVx 7, []) := rfl
theorem test_decode_Fx1E : decode [0xF8, 0x1E] = .ok (.addI 8, []) := rfl
theorem test_decode_Fx29 : decode [0xF9, 0x29] = .ok (.ldF 9, []) := rfl
theorem test_decode_Fx33 : decode [0xFA, 0x33] = .ok (.ldB 0xA, []) := rfl
theorem test_decode_Fx55 : decode [0xFB, 0x55] = .ok (.storeRegs 0xB, []) := rfl
theorem test_decode_Fx65 : decode [0xFC, 0x65] = .ok (.loadRegs 0xC, []) := rfl
theorem test_decode_rest : decode [0x60, 0x05, 0x12, 0x00] = .ok (.ldImm 0 5, [0x12, 0x00]) := rfl
theorem test_decode_truncated : decode [0x60] = .error .truncated := rfl
theorem test_decode_call : decode [0x22, 0x00] = .error (.unimplemented 0x2200) := rfl
theorem test_decode_return : decode [0x00, 0xEE] = .error (.unimplemented 0x00EE) := rfl
theorem test_decode_5xy1 : decode [0x51, 0x21] = .error (.unimplemented 0x5121) := rfl
theorem test_decode_8xy8 : decode [0x81, 0x28] = .error (.unimplemented 0x8128) := rfl
theorem test_decode_9xy1 : decode [0x91, 0x21] = .error (.unimplemented 0x9121) := rfl
theorem test_decode_ExFF : decode [0xE0, 0xFF] = .error (.unimplemented 0xE0FF) := rfl
theorem test_decode_FFFF : decode [0xFF, 0xFF] = .error (.unimplemented 0xFFFF) := rfl
theorem test_decodeTableWord : decodeTableWord 16 0xD125 = some (.drw 1 2 5) := by decide
theorem test_encode : encodeBytes (.drw 1 2 5) = [0xD1, 0x25] := by decide
theorem test_map_rows : opcodeMap.length = 32 := by decide

/-! ## Control flow (CF) -/

theorem test_jp : (ran (core0 []) 0x1234).map (·.pc) = some 0x234 := by decide -- CF-1
theorem test_jpV0 : (ran (core0 [(0, 0xFF)]) 0xBFFF).map (·.pc) = some 0x10FE := by decide -- CF-5
theorem test_seImm : (ran (core0 [(0xA, 0x42)]) 0x3A42).map (·.pc) = some 0x204 := by decide -- CF-6
theorem test_seImm_not : (ran (core0 [(0xA, 0x43)]) 0x3A42).map (·.pc) = some 0x202 := by decide -- CF-7
theorem test_sneImm_not : (ran (core0 [(0xA, 0x42)]) 0x4A42).map (·.pc) = some 0x202 := by decide -- CF-8
theorem test_sneImm : (ran (core0 []) 0x4A42).map (·.pc) = some 0x204 := by decide -- CF-9
theorem test_seReg : (ran (core0 [(1, 7), (2, 7)]) 0x5120).map (·.pc) = some 0x204 := by decide -- CF-10
theorem test_seReg_not : (ran (core0 [(1, 7), (2, 8)]) 0x5120).map (·.pc) = some 0x202 := by decide -- CF-11
theorem test_sneReg : (ran (core0 [(1, 7), (2, 8)]) 0x9120).map (·.pc) = some 0x204 := by decide -- CF-13
theorem test_sneReg_self : (ran (core0 [(1, 7)]) 0x9110).map (·.pc) = some 0x202 := by decide -- CF-14
theorem test_skip_to_end : (after (step (place (core0 []) 0xFFC 0x3000))).map (·.pc) = some 0x1000 := by decide -- CF-15

/-! ## Registers and ALU (ALU) -/

/-- Vx and VF after a tick. -/
def xf (x : Reg) (s : State) : Byte × Byte := (s.V x, s.V VF)

theorem test_ldImm : (ran (core0 [(0xF, 0x55)]) 0x6F01).map (·.V VF) = some 0x01 := by decide -- ALU-2
theorem test_addImm : (ran (core0 [(0xA, 0x01), (0xF, 0x55)]) 0x7AFF).map (xf 0xA) = some (0x00, 0x55) := by decide -- ALU-3
theorem test_addImm_VF : (ran (core0 [(0xF, 0xFF)]) 0x7F01).map (·.V VF) = some 0x00 := by decide -- ALU-4
theorem test_ldReg : (ran (core0 [(1, 0x01), (2, 0x99)]) 0x8120).map (·.V 1) = some 0x99 := by decide -- ALU-5
theorem test_orReg : (ran (core0 [(1, 0xF0), (2, 0x0F), (0xF, 0x33)]) 0x8121).map (xf 1) = some (0xFF, 0x33) := by decide -- ALU-6
theorem test_andReg : (ran (core0 [(1, 0xF0), (2, 0x3C), (0xF, 0x33)]) 0x8122).map (xf 1) = some (0x30, 0x33) := by decide -- ALU-7
theorem test_xorReg : (ran (core0 [(1, 0xFF), (2, 0x0F), (0xF, 0x33)]) 0x8123).map (xf 1) = some (0xF0, 0x33) := by decide -- ALU-8
theorem test_addReg : (ran (core0 [(1, 0xFF), (2, 0x01)]) 0x8124).map (xf 1) = some (0x00, 0x01) := by decide -- ALU-10
theorem test_addReg_VF : (ran (core0 [(1, 0x01), (0xF, 0xFF)]) 0x8F14).map (·.V VF) = some 0x01 := by decide -- ALU-13
theorem test_subReg : (ran (core0 [(1, 0x05), (2, 0x07)]) 0x8125).map (xf 1) = some (0xFE, 0x00) := by decide -- ALU-15
theorem test_subReg_equal : (ran (core0 [(1, 0x07), (2, 0x07)]) 0x8125).map (xf 1) = some (0x00, 0x01) := by decide -- ALU-16
theorem test_shr : (ran (core0 [(1, 0x05), (2, 0xAA)]) 0x8126).map (xf 1) = some (0x02, 0x01) := by decide -- ALU-19
theorem test_shr_VF : (ran (core0 [(0xF, 0x05)]) 0x8F06).map (·.V VF) = some 0x02 := by decide -- ALU-22
theorem test_subn : (ran (core0 [(1, 0x07), (2, 0x05)]) 0x8127).map (xf 1) = some (0xFE, 0x00) := by decide -- ALU-25
theorem test_subn_VF : (ran (core0 [(1, 0x10), (0xF, 0x20)]) 0x8F17).map (·.V VF) = some 0x00 := by decide -- ALU-26
theorem test_shl : (ran (core0 [(1, 0x81)]) 0x812E).map (xf 1) = some (0x02, 0x01) := by decide -- ALU-27
theorem test_shl_VF : (ran (under (core0 [(0xF, 0x81)]) fun c => { c with shiftVfDest := .sequential }) 0x8F0E).map (·.V VF) =
    some 0x02 := by decide -- ALU-31
theorem test_rnd_zero : ∀ raw : Byte, draw8 raw 0x00 = 0x00 := by decide -- ALU-34
theorem test_rnd_counts : (ran (core0 []) 0xC30F).map (·.draws) = some 1 := rfl -- ALU-33, the byte left open

/-! ## Index register and memory (IDX) -/

/-- The bytes at 0x300 to 0x302 and `I` after a tick. -/
def bytes300 (s : State) : List Byte × Word := (s.mem.readBytes 0x300 3, s.i)

theorem test_ldI : (ran (core0 []) 0xA123).map (·.i) = some 0x123 := by decide -- IDX-1
theorem test_addI : (ran { core0 [(3, 0x03)] with i := 0xFFE } 0xF31E).map (fun t => (t.i, t.V VF)) = some (0x1001, 0x00) := by decide -- IDX-3
theorem test_addI_masked : (ran (under { core0 [(3, 0x03)] with i := 0xFFE } fun c => { c with iMask := .low12 }) 0xF31E).map (·.i) =
    some 0x001 := by decide -- IDX-4
theorem test_ldF : (ran (core0 [(4, 0xFF)]) 0xF429).map (·.i) = some 0x4FB := by decide -- IDX-7
theorem test_ldF_base : (ran (under (core0 [(4, 0x0A)]) fun c => { c with fontBase := 0x050 }) 0xF429).map (·.i) = some 0x082 := by decide -- IDX-8
theorem test_ldB : (ran { core0 [(5, 0x7B)] with i := 0x300 } 0xF533).map bytes300 = some ([0x03, 0x02, 0x01], 0x267) := by decide -- IDX-9
theorem test_ldB_faults : (ran { core0 [(5, 0x7B)] with i := 0xFFE } 0xF533).map latched = some (.storeOor, 0x1000, 0x200) := by decide -- IDX-15
theorem test_storeRegs : (ran { core0 [(0, 0x11), (1, 0x22), (2, 0x33)] with i := 0x300 } 0xF155).map bytes300 =
    some ([0x11, 0x22, 0x00], 0x300) := by decide -- IDX-17
theorem test_storeRegs_faults : (ran { core0 [] with i := 0xFF1 } 0xFF55).map latched = some (.storeOor, 0x1000, 0x200) := by decide -- IDX-20
theorem test_loadRegs : (ran (withI (core0 []) 0x300 [0x03, 0x02, 0x01, 0x09]) 0xF265).map (fun t => (t.V 0, t.V 1, t.V 2, t.V 3)) =
    some (0x03, 0x02, 0x01, 0x00) := by decide -- IDX-21
theorem test_loadRegs_faults : (ran { core0 [] with i := 0x1000 } 0xF065).map latched = some (.loadOor, 0x1000, 0x200) := by decide -- IDX-23
theorem test_memory_canonical : ((Memory.empty.set 5 1).set 5 0) = Memory.empty := by decide

/-! ## Display (DSP) -/

set_option maxRecDepth 20000 in
theorem test_clrscr : (ran (withCells (core0 []) [(0, 0), (63, 31)]) 0x00E0).map (·.pix) = some (Display.blank 64 32) := by decide -- DSP-1
set_option maxRecDepth 20000 in
theorem test_drw : (ran (withI (withCells (core0 []) [(1, 0)]) 0x300 [0xF0]) 0xD011).map (fun t => (t.pix, t.V VF)) =
    some ((Display.blank 64 32).toggleAll [(0, 0), (2, 0), (3, 0)], 0x01) := by decide -- DSP-3
theorem test_drw_faults : (ran (withI (core0 [(1, 0x1F)]) 0x300 [0x80, 0x80]) 0xD012).map latched = some (.drawOor, 0x4000, 0x200) := by decide -- DSP-12

/-! ## Timers and keys (TI) -/

theorem test_skp : (ran (withKeys (core0 [(2, 5)]) [5]) 0xE29E).map (·.pc) = some 0x204 := by decide -- TI-1
theorem test_skp_faults : (ran (core0 [(2, 0x10)]) 0xE29E).map latched = some (.keyOor, 0x10, 0x200) := by decide -- TI-5
theorem test_sknp : (ran (withKeys (core0 [(2, 5)]) [5]) 0xE2A1).map (·.pc) = some 0x202 := by decide -- TI-4
theorem test_sknp_oor : (ran (under (core0 [(2, 0x10)]) fun c => { c with keyOor := .notPressed }) 0xE2A1).map (·.pc) = some 0x204 := by decide -- TI-6
theorem test_ldVxDt : (ran { core0 [] with dt := 0x10 } 0xF307).map (fun t => (t.dt, t.V 3)) = some (0x0F, 0x0F) := by decide -- TI-8
theorem test_ldVxK : (ran (withKeys (core0 []) [9, 3]) 0xF20A).map (fun t => (t.V 2, t.pc)) = some (0x03, 0x202) := by decide -- TI-10
theorem test_ldVxK_waits : (ran (core0 []) 0xF20A).map (fun t => (t.waitKey, t.pc)) = some (true, 0x200) := by decide -- TI-11
theorem test_waiting : (ran { core0 [] with waitKey := true, dt := 3 } 0xF20A).map (fun t => (t.waitKey, t.dt, t.opcode, t.pc)) =
    some (true, 2, 0x0000, 0x200) := by decide -- TI-12
theorem test_wait_ends : (ran (withKeys { core0 [] with waitKey := true, dt := 3 } [0xC]) 0xF20A).map (fun t => (t.waitKey, t.dt, t.V 2, t.pc)) =
    some (false, 2, 0x0C, 0x202) := by decide -- TI-13
theorem test_ldDtVx : (ran { core0 [(1, 0x05)] with dt := 0x09 } 0xF115).map (·.dt) = some 0x05 := by decide -- TI-15
theorem test_ldStVx : (ran { core0 [(1, 0x03)] with dt := 1, st := 1 } 0xF118).map (fun t => (t.dt, t.st)) = some (0, 3) := by decide -- TI-18

/-! ## The tick and the host (PIPE) -/

theorem test_unimplemented : (ran (core0 []) 0x2200).map (fun t => (t.pc, t.unimpl, t.opcode)) = some (0x202, true, 0x2200) := by decide -- PIPE-1
theorem test_report_cleared : (ran { core0 [] with unimpl := true } 0x6005).map (fun t => (t.V 0, t.unimpl)) = some (0x05, false) := by decide -- PIPE-7
theorem test_fetch_faults : (after (step { core0 [] with pc := 0xFFF, dt := 2 })).map (fun t => (latched t, t.dt)) =
    some ((.fetchOor, 0xFFF, 0xFFF), 1) := by decide -- PIPE-8
theorem test_fetch_top : (after (step (place (core0 []) 0xFFE 0x6005))).map (fun t => (t.V 0, t.pc)) = some (0x05, 0x1000) := by decide -- PIPE-9
theorem test_fetch_odd : (after (step (place (core0 []) 0x201 0x6005))).map (fun t => (t.V 0, t.pc)) = some (0x05, 0x203) := by decide -- PIPE-10
theorem test_after_fault : (ran { core0 [] with fault := .storeOor, dt := 6 } 0x6001).map (fun t => (t.dt, t.V 0, t.pc)) = some (6, 0, 0x200) := by decide -- PIPE-11
theorem test_paused : (ran { core0 [] with run := .paused, dt := 5 } 0x6001).map (fun t => (t.dt, t.V 0, t.pc)) = some (5, 0, 0x200) := by decide -- PIPE-12
theorem test_paused_timers : (ran (under { core0 [] with run := .paused, dt := 5 } fun c => { c with pausedTick := .timersOnly }) 0x6001).map
    (fun t => (t.dt, t.V 0, t.pc)) = some (4, 0, 0x200) := by decide -- PIPE-13
theorem test_power_on_tick : (after (step State.reset)).map (fun t => (t.pc, t.unimpl, t.opcode)) = some (0x002, true, 0x0000) := by decide -- PIPE-14
theorem test_start : (after (hostOp .start { core0 [(0, 7)] with pc := 0x345, run := .paused })).map (fun t => (t.pc, t.run, t.V 0)) =
    some (0x200, .running, 7) := by decide -- PIPE-15
theorem test_load : (after (hostOp (.load [0x12, 0x00]) { core0 [] with pc := 0x345, mem := Memory.empty.set 0x202 0x77 })).map
    (fun t => (t.pc, t.mem.readBytes 0x200 3)) = some (0x200, [0x12, 0x00, 0x77]) := by decide -- PIPE-16
theorem test_key_index : after (hostOp (.keyPress 16) State.reset) = none := by decide -- R252
theorem test_font : (powerOn { Config.specDefault with fontBase := 0x50, fontImage := [0xF0, 0x90] }).mem.readBytes 0x50 3 = [0xF0, 0x90, 0x00] := by
  decide -- 20_memory.md R61
theorem test_withFetchWord : (after (step (State.reset.withFetchWord 16 0x6A7F))).map (·.V 0xA) = some 0x7F := by decide -- ALU-1
theorem test_disassemble : disassemble 0x8AB4 = "ADD VA, VB" := by decide -- program P1
theorem test_disassemble_unimplemented : disassemble 0x2300 = "DW 0x2300" := by decide -- program P6
theorem test_snapshot : (registerSnapshot State.reset).length = 18 := by decide -- R254

/-! ## Runs (L3, CF-2, TI-11) -/

/-- A program loaded into a power-on core, run through some events: the tick that ended it and its last state. -/
def endOf (bytes : List Byte) (events : List RunEvent) : Option (Nat × State) :=
  (after (launch Config.specDefault bytes [])).bind fun s =>
    match runToEnd events s with
    | .ended n t => some (n, t)
    | .going _ => none
    | .refused _ => none

theorem test_run_self_jump : (endOf [0x12, 0x00] [.tick]).map (fun p => (p.1, p.2.halted, p.2.pc)) = some (1, true, 0x200) := by
  decide -- CF-2
theorem test_run_P7 : (endOf [0x60, 0x02, 0xB2, 0x06, 0x61, 0x55, 0x12, 0x06, 0x61, 0x07, 0x12, 0x0A] [.tick, .tick, .tick, .tick]).map
    (fun p => (p.1, p.2.halted, p.2.pc, p.2.V 0, p.2.V 1)) = some (3, true, 0x20A, 0x02, 0x07) := by decide
theorem test_run_P6 : (endOf [0x23, 0x00, 0xAF, 0xFF, 0xF1, 0x55, 0x12, 0x06] [.tick, .tick, .tick, .tick]).map
    (fun p => (p.1, p.2.faulted, latched p.2)) = some (3, true, .storeOor, 0x1000, 0x204) := by decide
theorem test_run_waits : endOf [0xF2, 0x0A, 0x12, 0x02] [.tick, .tick] = none := by decide -- TI-11, a wait is no end

/-! ## Witnesses: for each statement with hypotheses, states and operands that meet them all -/

/-- A state that does not wait, with a whole word at PC. -/
theorem ready_of {s : State} (h1 : s.fault = .none) (h2 : s.run = .running) (h3 : s.waitKey = false)
    (h4 : s.pc.toNat + 1 < 4096) : Ready s :=
  ⟨h1, h2, fun h => absurd (h3.symm.trans h) Bool.false_ne_true, h4⟩

/-- A tick in `s` executes what the word at PC decodes to. -/
theorem executes_of {s : State} {i : Instr} {w : Word} (h1 : s.fault = .none) (h2 : s.run = .running)
    (h3 : s.waitKey = false) (h4 : s.pc.toNat + 1 < 4096) (hw : WordAt s w) (hd : decodeWord w = .ok i) :
    Executes s i :=
  ⟨ready_of h1 h2 h3 h4, w, hw, hd⟩

/-- A tick in `s` executes none of the instructions when the word at PC is `w`, which decodes to nothing. -/
theorem not_executes_of {s : State} {i : Instr} {w : Word} {e : DecodeError} (hw : WordAt s w)
    (hd : decodeWord w = .error e) : ¬ Executes s i := by
  rintro ⟨-, w', hw', hd'⟩
  rw [BitVec.eq_of_toNat_eq (hw'.trans hw.symm), hd] at hd'
  cases hd'

theorem wordAt_reset : WordAt State.reset 0x0000 := by unfold WordAt; decide

/-- Each encoding format at the ends of its fields. -/
theorem witness_encodings :
    (0x3000#16).toNat = 0x3000 + 0x100 * (0 : Reg).val + (0x00 : Byte).toNat ∧
    (0x4FFF#16).toNat = 0x4000 + 0x100 * (15 : Reg).val + (0xFF : Byte).toNat ∧
    (0x5FF0#16).toNat = 0x5000 + 0x100 * (15 : Reg).val + 0x10 * (15 : Reg).val ∧
    (0xEFA1#16).toNat = 0xE0A1 + 0x100 * (15 : Reg).val ∧
    (0x1FFF#16).toNat = 0x1000 + (0xFFF : Addr12).toNat ∧
    (0xDFFF#16).toNat = 0xD000 + 0x100 * (15 : Reg).val + 0x10 * (15 : Reg).val + (15 : Fin 16).val := by
  decide

theorem witness_EncodeDecodeRoundTrip : decode [0x12, 0x34, 0x56] = .ok (.jp 0x234, [0x56]) := rfl

theorem witness_OpcodeMapDecidesDecoding :
    decodeWord 0x0000 = .error (.unimplemented 0x0000) ∧ 0xFF65#16 &&& 0xF0FF = 0xF065 := ⟨rfl, by decide⟩

theorem witness_StepRunsDecodedInstruction : ∃ s i w, Ready s ∧ WordAt s w ∧
    decode [s.mem.get s.pc.toNat, s.mem.get (s.pc.toNat + 1)] = .ok (i, []) ∧ s.pc.toNat + 1 = 4095 := by
  refine ⟨place (core0 []) 0xFFE 0x6005, .ldImm 0 5, 0x6005, ready_of rfl rfl rfl (by decide), ?_, rfl,
    by decide⟩
  unfold WordAt; decide

theorem witness_UnimplementedWordIsReportedNoOp :
    (∃ s w, Ready s ∧ WordAt s w ∧ ∀ i, decodeWord w ≠ .ok i) ∧
    ((0x0FFF#16).toNat < 0x1000 ∧ 0x0FFF#16 ≠ 0x00E0) ∧ ((0x00EE#16).toNat < 0x1000 ∧ 0x00EE#16 ≠ 0x00E0) ∧
    (0x2000 ≤ (0x2000#16).toNat ∧ (0x2FFF#16).toNat < 0x3000) := by
  refine ⟨⟨State.reset, 0x0000, ready_of rfl rfl rfl (by decide), wordAt_reset, fun i h => by cases h⟩, ?_⟩
  decide

theorem witness_FaultedOrPausedTickIsIdle :
    { State.reset with fault := .keyOor }.fault ≠ .none ∧
    ({ State.reset with run := .paused }.fault = .none ∧ { State.reset with run := .paused }.run = .paused ∧
      { State.reset with run := .paused }.cfg.pausedTick = .frozen) ∧
    ∃ s : State, s.fault = .none ∧ s.run = .paused ∧ s.cfg.pausedTick = .timersOnly :=
  ⟨by decide, ⟨rfl, rfl, rfl⟩, under { State.reset with run := .paused } fun c => { c with pausedTick := .timersOnly },
    rfl, rfl, rfl⟩

/-- Each clause: a tick that sets neither timer, one that sets DT, one that sets ST, one that reads DT. -/
theorem witness_TimersCountDownOncePerTick :
    (State.reset.fault = .none ∧ State.reset.run = .running ∧ ∀ x, ¬ Executes State.reset (.ldDtVx x)) ∧
    Executes (place (core0 []) 0x200 0xFF15) (.ldDtVx 15) ∧ Executes (place (core0 []) 0x200 0xF018) (.ldStVx 0) ∧
    Executes (place (core0 []) 0x200 0xF007) (.ldVxDt 0) := by
  refine ⟨⟨rfl, rfl, fun x => not_executes_of wordAt_reset (e := .unimplemented 0x0000) rfl⟩, ?_, ?_, ?_⟩
  · exact executes_of (w := 0xFF15) rfl rfl rfl (by decide) (by unfold WordAt; decide) rfl
  · exact executes_of (w := 0xF018) rfl rfl rfl (by decide) (by unfold WordAt; decide) rfl
  · exact executes_of (w := 0xF007) rfl rfl rfl (by decide) (by unfold WordAt; decide) rfl

theorem witness_DelayTimerRunsOut : ∃ t, core.run 1 State.reset = .next t ∧
    ∀ k, k < 1 → ∃ u, core.run k State.reset = .next u ∧ u.fault = .none ∧ u.run = .running ∧
      ∀ x, ¬ Executes u (.ldDtVx x) := by
  refine ⟨_, rfl, fun k hk => ?_⟩
  obtain rfl : k = 0 := by omega
  exact ⟨State.reset, rfl, rfl, rfl, fun x => not_executes_of wordAt_reset (e := .unimplemented 0x0000) rfl⟩

theorem witness_FetchBeyondMemoryFaults : ∃ s : State, s.fault = .none ∧ s.run = .running ∧
    (s.waitKey = true → ∃ k : Fin 16, s.key[k.val] = true) ∧ s.pc.toNat + 1 = 4096 :=
  ⟨{ withKeys (core0 []) [0xF] with pc := 0xFFF, waitKey := true }, rfl, rfl, fun _ => ⟨15, rfl⟩, rfl⟩

/-- Both sides of a skip condition. -/
theorem witness_ComparingSkipsSkipOne : State.reset.V 0 = 0x00 ∧ State.reset.V 0 ≠ 0x01 ∧ State.reset.V 0 = State.reset.V 1 ∧
    (core0 [(0, 1)]).V 0 ≠ (core0 [(0, 1)]).V 1 := by decide

/-- A destination other than VF, for the statements that ask for one. -/
theorem witness_notVF : (0 : Reg) ≠ VF ∧ (14 : Reg) ≠ VF := by decide

theorem witness_ShiftOfVFFollowsParameter : State.reset.cfg.shiftVfDest = .prestate ∧
    (under State.reset fun c => { c with shiftVfDest := .sequential }).cfg.shiftVfDest = .sequential := by decide

theorem witness_RandomByteIsWithinBound : (0xFF : Byte).toNat ≤ (0xFF : Byte).toNat ∧ (0x00 : Byte).toNat ≤ (0x00 : Byte).toNat := by
  decide

/-- Three digits that just fit, three that do not, and no digit at all beyond memory. -/
theorem witness_BcdStoresDigitsAndRepointsI :
    ({ core0 [(5, 123)] with i := 0xFFD }.mem.wf = true ∧ 0xFFD + digits Config.specDefault 123 = 4096) ∧
    (digits Config.specDefault 123 ≠ 0 ∧ 4096 < 0xFFE + digits Config.specDefault 123) ∧
    digits { Config.specDefault with bcdZero := .none } 0 = 0 := by decide

theorem witness_RegisterDumpStoresV0ToVx : { core0 [] with i := 0xFF0 }.mem.wf = true ∧
    { core0 [] with i := 0xFF0 }.i.toNat + (15 : Reg).val < 4096 ∧ (15 : Reg).val ≤ (15 : Reg).val := by decide

theorem witness_RegisterLoadReadsV0ToVx : { core0 [] with i := 0xFFF }.i.toNat + (0 : Reg).val < 4096 := by decide

theorem witness_RegisterDumpAndLoadFaultWhole : 4096 ≤ { core0 [] with i := 0xFF1 }.i.toNat + (15 : Reg).val ∧
    4096 ≤ { core0 [] with i := 0x1000 }.i.toNat + (0 : Reg).val := by decide

theorem witness_DumpThenLoadRestores : ∃ s t u : State, s.mem.wf = true ∧ s.i.toNat + (15 : Reg).val < 4096 ∧
    exec (.storeRegs 15) s = .next t ∧ u.mem = t.mem ∧ u.i = t.i :=
  ⟨{ core0 [(0, 1)] with i := 0xFF0 }, _, _, rfl, by decide, rfl, rfl, rfl⟩

theorem witness_MemoryIsReadAfterWrite : Memory.wf ⟨[(4095, 7)]⟩ = true ∧ 4095 < 4096 ∧
    ∀ c, Memory.get ⟨[(4095, 7)]⟩ c = Memory.get ⟨[(4095, 7)]⟩ c := ⟨by decide, by decide, fun _ => rfl⟩

theorem witness_StoredBytesAreFetched : ∃ s t u : State, s.mem.wf = true ∧ s.i.toNat + (1 : Reg).val < 4096 ∧
    1 ≤ (1 : Reg).val ∧ exec (.storeRegs 1) s = .next t ∧ u.mem = t.mem ∧ u.pc = s.i ∧ Ready u := by
  refine ⟨{ core0 [(0, 0x60), (1, 0x05)] with i := 0xFFE }, _, { core0 [] with pc := 0xFFE, mem := _ }, rfl, by decide,
    by decide, rfl, rfl, rfl, ready_of rfl rfl rfl (by decide)⟩

/-! ### Drawing -/

/-- A state about to draw: I at `i`, the sprite there, V0 and V1 the position. -/
def drawing (f : Config → Config) (x y : Byte) (i : Word) (bs : List Byte) : State :=
  under (withI (core0 [(0, x), (1, y)]) i bs) f

/-- The four drawing states below meet the invariant. -/
theorem drawing_inv {f : Config → Config} {x y : Byte} {i : Word} {bs : List Byte} (h1 : (f Config.specDefault).wellFormed = true)
    (h2 : bs = [] ∨ i.toNat + bs.length ≤ memSize) (h3 : (f Config.specDefault).dispW = 64)
    (h4 : (f Config.specDefault).dispH = 32)
    (h5 : i &&& IMask.toWord (f Config.specDefault).iMask = i) : (drawing f x y i bs).Inv where
  cfgOk := h1
  memOk := Memory.writeBytes_wf bs Memory.empty_wf h2
  pixOk := by
    show (Display.blank 64 32).shaped (f Config.specDefault).dispW (f Config.specDefault).dispH
    rw [h3, h4]
    exact Display.blank_shaped 64 32
  pcOk := by show (0x0000#16).toNat ≤ 0x10FE; decide
  iOk := h5
  faultOk := rfl
  unimplOk := fun h => by cases h

/-- `clip`, and a sprite that hits (63, 0), misses (0, 0) and lies partly outside. -/
theorem witness_DrawXorsSprite_clip : ∃ s : State, s.Inv ∧ s.i.toNat + (1 : Fin 16).val ≤ 4096 ∧ s.cfg.drawEdge = .clip ∧
    Hits s (s.V 0).toNat (s.V 1).toNat 1 63 0 ∧ ¬ Hits s (s.V 0).toNat (s.V 1).toNat 1 0 0 := by
  refine ⟨drawing (fun c => { c with drawEdge := .clip }) 60 0 0xFFF [0xFF],
    drawing_inv (by decide) (by decide) rfl rfl (by decide), by decide, rfl, ⟨0, 3, by decide, by decide, by decide⟩, ?_⟩
  rintro ⟨r, c, -, h, -⟩
  have : ((drawing (fun c => { c with drawEdge := .clip }) 60 0 0xFFF [0xFF]).V 0).toNat = 60 := by decide
  omega

/-- `fault` with every set bit inside: no row at all, and I anywhere. -/
theorem witness_DrawXorsSprite_fault : ∃ s : State, s.Inv ∧ (0 : Fin 16).val = 0 ∧ s.cfg.drawEdge = .fault ∧
    ∀ r c, ¬ Outside s (s.V 0).toNat (s.V 1).toNat (0 : Fin 16).val r c := by
  refine ⟨drawing id 60 0 0xFFF [], drawing_inv (by decide) (by decide) rfl rfl (by decide), rfl, rfl, ?_⟩
  rintro r c ⟨h, -⟩
  simp [SpriteBit] at h

/-- VF both ways: no bit drawn, with each `DRAW_VF`. -/
theorem witness_DrawnFlag : State.reset.cfg.drawVf = .clear ∧
    (under State.reset fun c => { c with drawVf := .keep }).cfg.drawVf = .keep := by decide

theorem witness_DrawWrapsAroundEdges : ∃ s : State, s.Inv ∧ s.cfg.drawEdge = .wrap ∧ s.i.toNat + (1 : Fin 16).val ≤ 4096 ∧
    SpriteBit s 1 0 7 = true :=
  ⟨drawing (fun c => { c with drawEdge := .wrap }) 62 31 0xFFF [0xC3],
    drawing_inv (by decide) (by decide) rfl rfl (by decide), rfl, by decide, by decide⟩

/-- A draw past MEM_SIZE, and one whose first bit outside is at row 0, column 4. -/
theorem witness_DrawFaultsWhole : ((2 : Fin 16).val ≠ 0 ∧ 4096 < (drawing id 0 0 0xFFF [0x80]).i.toNat + (2 : Fin 16).val) ∧
    ∃ s : State, s.i.toNat + (1 : Fin 16).val ≤ 4096 ∧ s.cfg.drawEdge = .fault ∧
      Outside s (s.V 0).toNat (s.V 1).toNat 1 0 4 ∧
      ∀ r c, Outside s (s.V 0).toNat (s.V 1).toNat 1 r c → 0 < r ∨ (0 = r ∧ 4 ≤ c) := by
  refine ⟨by decide, drawing id 60 0 0x300 [0xFF], by decide, rfl, ⟨by decide, by decide⟩, ?_⟩
  rintro r c ⟨h, h'⟩
  have h0 : ((drawing id 60 0 0x300 [0xFF]).V 0).toNat = 60 := by decide
  have h1 : ((drawing id 60 0 0x300 [0xFF]).V 1).toNat = 0 := by decide
  have h2 : (drawing id 60 0 0x300 [0xFF]).cfg.dispW = 64 := rfl
  have h3 : (drawing id 60 0 0x300 [0xFF]).cfg.dispH = 32 := rfl
  simp only [SpriteBit, Bool.and_eq_true, decide_eq_true_eq] at h
  omega

set_option maxRecDepth 20000 in
theorem witness_DrawingTwiceRestoresDisplay : ∃ s t : State, s.Inv ∧ s.fault = .none ∧ (0 : Reg) ≠ VF ∧ (1 : Reg) ≠ VF ∧
    exec (.drw 0 1 1) s = .next t ∧ t.fault = .none ∧ Hits s (s.V 0).toNat (s.V 1).toNat 1 3 2 :=
  ⟨drawing id 3 2 0x300 [0xC0], _, drawing_inv (by decide) (by decide) rfl rfl (by decide), rfl, by decide, by decide,
    rfl, rfl, ⟨0, 0, by decide, by decide, by decide⟩⟩

theorem witness_DisplayPortIsRowMajor : State.reset.pix.shaped State.reset.cfg.dispW State.reset.cfg.dispH ∧
    63 < State.reset.cfg.dispW ∧ 31 < State.reset.cfg.dispH := ⟨Display.blank_shaped 64 32, by decide, by decide⟩

/-! ### Timers and keys -/

/-- Vx = 15 names a key, Vx = 16 does not, under each `KEY_OOR`. -/
theorem witness_KeySkipsReadTheNamedKey : ((core0 [(0, 15)]).V 0).toNat = (15 : Fin 16).val ∧
    (16 ≤ ((core0 [(0, 16)]).V 0).toNat ∧ (core0 [(0, 16)]).cfg.keyOor = .fault) ∧
    (16 ≤ ((under (core0 [(0, 16)]) fun c => { c with keyOor := .notPressed }).V 0).toNat ∧
      (under (core0 [(0, 16)]) fun c => { c with keyOor := .notPressed }).cfg.keyOor = .notPressed) ∧
    (State.reset.key[0] = false ∧ (withKeys State.reset [0]).key[0] = true) := by decide

theorem witness_TimerInstructionsReadAndSet : Executes (place (core0 []) 0x200 0xF307) (.ldVxDt 3) ∧
    Executes (place (core0 []) 0x200 0xF315) (.ldDtVx 3) ∧ Executes (place (core0 []) 0x200 0xF318) (.ldStVx 3) :=
  ⟨executes_of (w := 0xF307) rfl rfl rfl (by decide) (by unfold WordAt; decide) rfl,
    executes_of (w := 0xF315) rfl rfl rfl (by decide) (by unfold WordAt; decide) rfl,
    executes_of (w := 0xF318) rfl rfl rfl (by decide) (by unfold WordAt; decide) rfl⟩

/-- Keys 3 and 9 pressed, and no key, each with Fx0A at PC. -/
theorem witness_WaitForKeyTakesLowestOrArms :
    (∃ s : State, s.key[(3 : Fin 16).val] = true ∧ (∀ j : Fin 16, s.key[j.val] = true → 3 ≤ j) ∧
      Executes s (.ldVxK 2)) ∧
    ∃ s : State, (∀ j : Fin 16, s.key[j.val] = false) ∧ Executes s (.ldVxK 2) :=
  ⟨⟨place (withKeys (core0 []) [9, 3]) 0x200 0xF20A, by decide, by decide,
      executes_of (w := 0xF20A) rfl rfl rfl (by decide) (by unfold WordAt; decide) rfl⟩,
    place (core0 []) 0x200 0xF20A, by decide,
      executes_of (w := 0xF20A) rfl rfl rfl (by decide) (by unfold WordAt; decide) rfl⟩

theorem witness_WaitingLastsUntilAKey :
    (∃ s : State, s.fault = .none ∧ s.run = .running ∧ s.waitKey = true ∧ ∀ j : Fin 16, s.key[j.val] = false) ∧
    ∃ s : State, s.fault = .none ∧ s.run = .running ∧ s.waitKey = true ∧ s.key[(15 : Fin 16).val] = true ∧
      (∀ j : Fin 16, s.key[j.val] = true → 15 ≤ j) ∧ Executes s (.ldVxK 2) := by
  refine ⟨⟨{ core0 [] with waitKey := true }, rfl, rfl, rfl, by decide⟩,
    { place (withKeys (core0 []) [15]) 0x200 0xF20A with waitKey := true }, rfl, rfl, rfl, by decide, by decide,
    ⟨rfl, rfl, fun _ => ⟨15, rfl⟩, by decide⟩, 0xF20A, ?_, rfl⟩
  unfold WordAt; decide

/-! ### Faults and invariants -/

/-- A fetch fault, and a fault of an instruction. -/
theorem witness_FaultsArePrecise : (∃ s t : State, s.fault = .none ∧ step s = .next t ∧ t.fault = .fetchOor) ∧
    ∃ s t : State, s.fault = .none ∧ step s = .next t ∧ t.fault = .loadOor :=
  ⟨⟨{ core0 [] with pc := 0xFFF }, _, rfl, rfl, rfl⟩, place { core0 [] with i := 0x1000 } 0x200 0xF065, _, rfl, rfl, rfl⟩

theorem witness_OnlyNamedInstructionsFault : ∃ s t : State, s.fault = .none ∧ exec (.skp 0) s = .next t ∧ t.fault ≠ .none :=
  ⟨core0 [(0, 16)], _, rfl, rfl, by decide⟩

theorem witness_FaultLatchIsSticky : ∃ s t : State, s.fault ≠ .none ∧
    runEvents [.tick, .host .resume, .host (.load [0x12, 0x00]), .tick] s = .next t :=
  ⟨{ core0 [] with fault := .storeOor, faultInfo := 0x1000 }, _, by decide, rfl⟩

theorem witness_StepKeepsInvariant : ∃ s t : State, s.Inv ∧ step s = .next t :=
  ⟨drawing id 3 2 0x300 [0xC0], _, drawing_inv (by decide) (by decide) rfl rfl (by decide), rfl⟩

theorem witness_HostOperationsKeepInvariant : ∃ s t : State, s.Inv ∧ hostOp (.load [0x12, 0x00]) s = .next t :=
  ⟨drawing id 3 2 0x300 [0xC0], _, drawing_inv (by decide) (by decide) rfl rfl (by decide), rfl⟩

/-- Parameters other than the defaults, with a font that just fits (also for PowerOnMeetsInvariant, PowerOnValues). -/
theorem witness_ReachableStatesMeetInvariant : ∃ (c : Config) (t : State), c.wellFormed = true ∧
    c.fontBase + c.fontImage.length = 4096 ∧ runEvents [.host (.keyPress 15), .tick, .host .pause] (powerOn c) = .next t :=
  ⟨{ Config.specDefault with fontBase := 0xFFE, fontImage := [0xF0, 0x90], dispW := 1, dispH := 1 }, _, by decide,
    by decide, rfl⟩

theorem witness_KeysRunStateAndParametersAreTheHosts : (∃ t, exec .clrscr State.reset = .next t) ∧
    ∃ t, step State.reset = .next t := ⟨⟨_, rfl⟩, _, rfl⟩

/-! ### The host -/

theorem witness_PauseThenResumeKeepsState : (State.reset.fault = .none ∧ State.reset.cfg.pausedTick = .frozen) ∧
    ∃ s : State, s.fault = .none ∧ s.cfg.pausedTick = .timersOnly :=
  ⟨⟨rfl, rfl⟩, under State.reset fun c => { c with pausedTick := .timersOnly }, rfl, rfl⟩

/-- The longest program that fits, and one byte more (also for StartAndLoadKeepTheRest). -/
theorem witness_LoadCopiesProgram : State.reset.mem.wf = true ∧ State.reset.cfg.loadAddr < 4096 ∧
    State.reset.cfg.loadAddr + (List.replicate 3584 (0 : Byte)).length = 4096 ∧
    4096 < State.reset.cfg.loadAddr + (List.replicate 3585 (0 : Byte)).length := by
  rw [List.length_replicate, List.length_replicate]
  decide

theorem witness_KeyEventsSetOneEntry : 16 ≤ 16 ∧ (15 : Fin 16) = 15 := by decide

theorem witness_HaltedStateStaysHalted : (place (core0 []) 0x200 0x1200).halted = true := by decide

/-! ### Runs -/

/-- A run that ends, and one that goes on. -/
theorem witness_RunEndsAtFirstHaltedOrFaultedTick :
    (∃ s t, runToEnd [.key 7 true, .tick, .tick] s = .ended 1 t) ∧ ∃ s t, runToEnd [.tick, .key 7 false] s = .going t :=
  ⟨⟨place (core0 []) 0x200 0x1200, _, rfl⟩, State.reset, _, rfl⟩

theorem witness_LaunchedRunEndsOrGoesOn : ∃ s : State, s.IsLaunch :=
  ⟨_, Config.specDefault, [0x12, 0x00], [.start, .keyPress 15], by decide, by decide, rfl⟩

/-- A halted end with more events after it, a faulted end, and a waiting state. -/
theorem witness_OnlyAHaltedEndHasAResult :
    (∃ s t u : State, runToEnd [.tick] s = .ended 1 t ∧ t.fault = .none ∧
      runEvents ([.key 3 true, .tick].map RunEvent.toEvent) t = .next u) ∧
    (∃ s t : State, runToEnd [.tick] s = .ended 1 t ∧ t.fault ≠ .none) ∧
    ∃ s : State, s.fault = .none ∧ s.waiting = true :=
  ⟨⟨place (core0 []) 0x200 0x1200, _, _, rfl, rfl, rfl⟩, ⟨{ core0 [] with pc := 0xFFF }, _, rfl, by decide⟩,
    { core0 [] with waitKey := true }, rfl, by decide⟩

end Sys2Proof.Tests
end

section
/-! SUPPORT. One tick in the vocabulary of the statements: the state it dispatches in is `entry`, a ready tick runs
the decoded instruction or reports the word, and a tick executes at most one instruction (spec/40_pipeline.md). -/

namespace Sys2Proof.Proofs

open Sys2Proof Sys2Proof.Machine Sys2Proof.Claims

/-! ## From the stages to `entry` -/

theorem down_toNat (t : Byte) : (down t).toNat = t.toNat - 1 := by
  have := t.isLt
  simp only [down, BitVec.toNat_ofNat]; omega

theorem timerDown_eq_down (t : Byte) : timerDown t = down t :=
  BitVec.eq_of_toNat_eq (by rw [timerDown_toNat, down_toNat])

theorem timerStage_eq (s : State) : s.timerStage = { s with dt := down s.dt, st := down s.st } := by
  simp only [State.timerStage, timerDown_eq_down]

theorem wordAt_fetchWord (s : State) : WordAt s s.fetchWord := s.fetchWord_toNat

/-- The word at PC is one word. -/
theorem eq_fetchWord_of_wordAt {s : State} {w : Word} (h : WordAt s w) : w = s.fetchWord :=
  BitVec.eq_of_toNat_eq (h.trans s.fetchWord_toNat.symm)

/-- R104 to R108: the stages before the dispatch leave `entry`. -/
theorem fetched_eq_entry (s : State) : s.timerStage.released.fetched = entry s s.fetchWord := by
  have hpc : BitVec.ofNat 16 (s.pc.toNat + 2) = s.pc + 2 := by
    apply BitVec.eq_of_toNat_eq; simp
  rw [timerStage_eq]
  simp only [State.fetched, State.setPc, State.released_pc, hpc]
  rfl

/-! ## What a running tick can be -/

theorem ready_iff (s : State) : Ready s ↔
    s.fault = .none ∧ s.run = .running ∧ (s.waitKey = true → s.anyKey = true) ∧ s.fetchFaults = false := by
  rw [Ready, anyKey_iff, State.fetchFaults_eq_false]

/-- What a running tick without a fault can be: it waits, its fetch faults, it runs the decoded instruction, or it
reports the word (R104 to R112). The first two are the ticks that are not `Ready`. -/
theorem running_step_cases {s : State} (hfault : s.fault = .none) (hrun : s.run = .running) :
    (¬ Ready s ∧ step s = .next s.timerStage) ∨
    (¬ Ready s ∧ step s = .next (s.timerStage.released.raiseAt .fetchOor s.pc.toNat s.pc)) ∨
    (Ready s ∧ ∃ i, decodeWord s.fetchWord = .ok i ∧ step s = rolledBack (exec i (entry s s.fetchWord))) ∨
    (Ready s ∧ ∃ e, decodeWord s.fetchWord = .error e ∧
      step s = .next { entry s s.fetchWord with unimpl := true }) := by
  rw [ready_iff]
  rcases step_cases s with ⟨h, -⟩ | ⟨-, h, -⟩ | ⟨-, -, hwait, hkey, hstep⟩ | ⟨-, -, hkey, hstep⟩
  · exact absurd hfault h
  · simp [hrun] at h
  · exact .inl ⟨by simp [hwait, hkey], hstep⟩
  · rw [hstep]
    rcases fetchExecute_cases s.timerStage.released with ⟨hf, h⟩ | ⟨hf, i, hd, h⟩ | ⟨hf, e, hd, h⟩
    · exact .inr (.inl ⟨fun hr => by simp [show s.fetchFaults = true from hf] at hr, h⟩)
    · exact .inr (.inr (.inl ⟨⟨hfault, hrun, hkey, hf⟩, i, hd, by rw [h, fetched_eq_entry]⟩))
    · exact .inr (.inr (.inr ⟨⟨hfault, hrun, hkey, hf⟩, e, hd, by rw [h, fetched_eq_entry]; rfl⟩))

/-! ## The instruction a tick executes -/

/-- A tick executes what the word at PC decodes to, if it is ready at all. -/
theorem executes_iff {s : State} {i : Instr} : Executes s i ↔ Ready s ∧ decodeWord s.fetchWord = .ok i := by
  constructor
  · rintro ⟨hready, w, hw, hd⟩
    exact ⟨hready, eq_fetchWord_of_wordAt hw ▸ hd⟩
  · rintro ⟨hready, hd⟩
    exact ⟨hready, _, wordAt_fetchWord s, hd⟩

/-- A tick executes one instruction only. -/
theorem executes_iff_eq {s : State} {i j : Instr} (h : Executes s i) : Executes s j ↔ i = j := by
  obtain ⟨hready, hd⟩ := executes_iff.1 h
  simp [executes_iff, hready, hd]

/-- R109, R110: the tick that executes `i`. -/
theorem step_of_executes {s : State} {i : Instr} (h : Executes s i) :
    step s = rolledBack (exec i (entry s s.fetchWord)) := by
  obtain ⟨hready, hd⟩ := executes_iff.1 h
  have ⟨hfault, hrun, _⟩ := hready
  rcases running_step_cases hfault hrun with ⟨h, -⟩ | ⟨h, -⟩ | ⟨-, j, hj, hstep⟩ | ⟨-, e, he, -⟩
  · exact absurd hready h
  · exact absurd hready h
  · cases hd.symm.trans hj; exact hstep
  · cases hd.symm.trans he

/-- R112: the ready tick whose word no row matches. -/
theorem step_of_unimplemented {s : State} (hready : Ready s) (hd : ∀ i, decodeWord s.fetchWord ≠ .ok i) :
    step s = .next { entry s s.fetchWord with unimpl := true } := by
  have ⟨hfault, hrun, _⟩ := hready
  rcases running_step_cases hfault hrun with ⟨h, -⟩ | ⟨h, -⟩ | ⟨-, i, hi, -⟩ | ⟨-, -, -, hstep⟩
  · exact absurd hready h
  · exact absurd hready h
  · exact absurd hi (hd i)
  · exact hstep

/-- A running tick that executes no instruction changes the timers by its timer stage alone. -/
theorem timers_of_not_executes {s : State} (hfault : s.fault = .none) (hrun : s.run = .running)
    (h : ∀ i, ¬ Executes s i) : ∃ t, step s = .next t ∧ t.dt = down s.dt ∧ t.st = down s.st := by
  rcases running_step_cases hfault hrun with ⟨-, hstep⟩ | ⟨-, hstep⟩ | ⟨hready, i, hd, -⟩ | ⟨-, -, -, hstep⟩
  · exact ⟨_, hstep, timerDown_eq_down _, timerDown_eq_down _⟩
  · exact ⟨_, hstep, timerDown_eq_down _, timerDown_eq_down _⟩
  · exact absurd (executes_iff.2 ⟨hready, hd⟩) (h i)
  · exact ⟨_, hstep, rfl, rfl⟩

end Sys2Proof.Proofs
end

section
/-! PROOF. Words that no row of the opcode map matches (spec/30_encoding.md R81, 40_pipeline.md R112). -/

namespace Sys2Proof.Proofs

open Sys2Proof Sys2Proof.Machine Sys2Proof.Claims

/-- Of the words 0nnn only 00E0 decodes (R81). -/
theorem decodeWord_zero_row {w : Word} (h : w.toNat < 0x1000) (hne : w ≠ 0x00E0) :
    decodeWord w = .error (.unimplemented w) := by
  have hn : n1 w = 0#4 := n1_eq (by decide) (by omega)
  rw [decodeWord, hn]
  exact if_neg hne

/-- No word 2nnn decodes (R81). -/
theorem decodeWord_call_row {w : Word} (hlo : 0x2000 ≤ w.toNat) (hhi : w.toNat < 0x3000) :
    decodeWord w = .error (.unimplemented w) := by
  have hn : n1 w = 2#4 := n1_eq (by decide) (by omega)
  rw [decodeWord, hn]
  rfl

/-- Settles O6: the ready tick that reports its word, and the two ranges of words by their first digit. -/
theorem unimplementedWordIsReportedNoOp : Obligations.UnimplementedWordIsReportedNoOp := by
  refine ⟨fun s w hready hw hd => ?_, fun w i hlt hne => ?_, fun w i hlo hhi => ?_⟩
  · obtain rfl := eq_fetchWord_of_wordAt hw
    exact step_of_unimplemented hready hd
  · simp [decodeWord_zero_row hlt hne]
  · simp [decodeWord_call_row hlo hhi]

end Sys2Proof.Proofs
end

section
/-! SUPPORT. The key instructions Ex9E, ExA1 and Fx0A, case by case (spec/45_timers_input.md). -/

namespace Sys2Proof.Proofs

open Sys2Proof Sys2Proof.Machine

theorem exec_skp_pressed {x : Reg} {s : State} {b : Bool} (h : s.pressed (s.V x) = some b) :
    exec (.skp x) s = .next (s.skipIf b) := by
  show execSkp x s = _; rw [execSkp, h]

theorem exec_skp_keyOor {x : Reg} {s : State} (h : s.pressed (s.V x) = none) :
    exec (.skp x) s = .next (s.raise .keyOor (s.V x).toNat) := by
  show execSkp x s = _; rw [execSkp, h]

theorem exec_sknp_pressed {x : Reg} {s : State} {b : Bool} (h : s.pressed (s.V x) = some b) :
    exec (.sknp x) s = .next (s.skipIf (!b)) := by
  show execSknp x s = _; rw [execSknp, h]

theorem exec_sknp_keyOor {x : Reg} {s : State} (h : s.pressed (s.V x) = none) :
    exec (.sknp x) s = .next (s.raise .keyOor (s.V x).toNat) := by
  show execSknp x s = _; rw [execSknp, h]

theorem exec_ldVxK_key {x : Reg} {s : State} {k : Nat} (h : s.firstKey = some k) :
    exec (.ldVxK x) s = .next (s.setV x (BitVec.ofNat 8 k)) := by
  show execLdVxK x s = _; rw [execLdVxK, h]

theorem exec_ldVxK_arms {x : Reg} {s : State} (h : s.firstKey = none) :
    exec (.ldVxK x) s = .next { s with waitKey := true } := by
  show execLdVxK x s = _; rw [execLdVxK, h]

end Sys2Proof.Proofs
end

section
/-! PROOF. The timers over one tick (spec/40_pipeline.md R104): what an instruction does to them, then the tick. -/

namespace Sys2Proof.Proofs

open Sys2Proof Sys2Proof.Machine Sys2Proof.Claims

/-! ## What an instruction does to the timers -/

/-- A store at I, done or faulting, changes the timers only as its continuation does. -/
theorem storeAtI_keeps_timers (s : State) (bs : List Byte) {f : State → State}
    (hdt : ∀ t, (f t).dt = t.dt) (hst : ∀ t, (f t).st = t.st) :
    ∃ t, storeAtI s bs f = .next t ∧ t.dt = s.dt ∧ t.st = s.st := by
  by_cases h : bs.length = 0 ∨ s.i.toNat + bs.length ≤ memSize
  · exact ⟨_, storeAtI_fits h, hdt _, hst _⟩
  · exact ⟨_, storeAtI_raises h, rfl, rfl⟩

/-- No instruction but Fx15 and Fx18 writes a timer, whether it completes or faults. -/
theorem exec_keeps_timers (i : Instr) (s : State) (hdt : ∀ x, i ≠ .ldDtVx x) (hst : ∀ x, i ≠ .ldStVx x) :
    ∃ t, exec i s = .next t ∧ t.dt = s.dt ∧ t.st = s.st := by
  cases i with
  | ldDtVx x => exact absurd rfl (hdt x)
  | ldStVx x => exact absurd rfl (hst x)
  | drw x y n =>
    rcases execDrw_cases x y n s with ⟨-, h⟩ | ⟨-, _, -, h⟩ | ⟨-, _, -, h⟩
    · exact ⟨_, h, rfl, rfl⟩
    · exact ⟨_, h, rfl, rfl⟩
    · exact ⟨_, h, rfl, rfl⟩
  | skp x =>
    rcases s.pressed_cases (s.V x) with ⟨b, h⟩ | ⟨h, -⟩
    · exact ⟨_, exec_skp_pressed h, by simp, by simp⟩
    · exact ⟨_, exec_skp_keyOor h, rfl, rfl⟩
  | sknp x =>
    rcases s.pressed_cases (s.V x) with ⟨b, h⟩ | ⟨h, -⟩
    · exact ⟨_, exec_sknp_pressed h, by simp, by simp⟩
    · exact ⟨_, exec_sknp_keyOor h, rfl, rfl⟩
  | ldVxK x =>
    cases h : s.firstKey with
    | some k => exact ⟨_, exec_ldVxK_key h, rfl, rfl⟩
    | none => exact ⟨_, exec_ldVxK_arms h, rfl, rfl⟩
  | ldB x =>
    exact storeAtI_keeps_timers s (bcdBytes s.cfg (s.V x)) (f := fun t => t.setI (fontAddr s.cfg (s.V x)))
      (fun _ => rfl) (fun _ => rfl)
  | storeRegs x => exact storeAtI_keeps_timers s (s.regsUpTo x) (f := id) (fun _ => rfl) (fun _ => rfl)
  | loadRegs x =>
    by_cases h : s.i.toNat + x.val < memSize
    · exact ⟨_, execLoadRegs_fits h, rfl, rfl⟩
    · exact ⟨_, execLoadRegs_raises (by omega), rfl, rfl⟩
  | seImm x nn => exact ⟨_, rfl, by simp, by simp⟩
  | sneImm x nn => exact ⟨_, rfl, by simp, by simp⟩
  | seReg x y => exact ⟨_, rfl, by simp, by simp⟩
  | sneReg x y => exact ⟨_, rfl, by simp, by simp⟩
  | _ => exact ⟨_, rfl, rfl, rfl⟩

/-- R223, R226, R227: the timers after any instruction, and what Fx07 reads. -/
theorem exec_timers (i : Instr) (s : State) : ∃ t, exec i s = .next t ∧
    ((∀ x, i ≠ .ldDtVx x) → t.dt = s.dt) ∧ (∀ x, i = .ldDtVx x → t.dt = s.V x) ∧
    ((∀ x, i ≠ .ldStVx x) → t.st = s.st) ∧ (∀ x, i = .ldStVx x → t.st = s.V x) ∧
    (∀ x, i = .ldVxDt x → t.V x = s.dt) := by
  cases i with
  | ldDtVx x => exact ⟨{ s with dt := s.V x }, rfl, by simp⟩
  | ldStVx x => exact ⟨{ s with st := s.V x }, rfl, by simp⟩
  | ldVxDt x => exact ⟨s.setV x s.dt, rfl, by simp⟩
  | _ =>
    refine (exec_keeps_timers _ s (by simp) (by simp)).imp fun t ⟨hnext, hdt, hst⟩ => ⟨hnext, ?_⟩
    simp [hdt, hst]

/-! ## The tick -/

/-- Settles O8: a tick that executes an instruction leaves the timers that instruction leaves in `entry`, any other
tick those of the timer stage. -/
theorem timersCountDownOncePerTick : Obligations.TimersCountDownOncePerTick := by
  intro s hfault hrun
  by_cases hex : ∃ i, Executes s i
  · obtain ⟨i, hi⟩ := hex
    obtain ⟨t, hnext, hdt, hdtSet, hst, hstSet, hread⟩ := exec_timers i (entry s s.fetchWord)
    have hV : ∀ x, t.rollBack.V x = t.V x := State.V_congr t.rollBack_v
    refine ⟨t.rollBack, by rw [step_of_executes hi, hnext]; rfl, ?_⟩
    simp only [executes_iff_eq hi, State.rollBack_dt, State.rollBack_st, hV, ← down_toNat]
    exact ⟨fun h => congrArg _ (hdt h), hdtSet, fun h => congrArg _ (hst h), hstSet, fun x h => congrArg _ (hread x h)⟩
  · have hnone : ∀ i, ¬ Executes s i := not_exists.1 hex
    obtain ⟨t, hstep, hdt, hst⟩ := timers_of_not_executes hfault hrun hnone
    refine ⟨t, hstep, ?_⟩
    simp [hnone, hdt, hst, down_toNat]

end Sys2Proof.Proofs
end

section
/-! SUPPORT. For the statements about one instruction: the words of a format decode to the instruction of their row
(spec/30_encoding.md R72, R77), and the frames of the operations that write PC alone (spec/41_control_flow.md R131). -/

namespace Sys2Proof.Proofs

open Sys2Proof Sys2Proof.Machine Sys2Proof.Claims

/-! ## The words of a format, by the row's rule on fields -/

/-- Format `Onnn`. -/
theorem encodesNNN_of_row {op : Nat} {f : Addr12 → Instr} (hop : op < 16)
    (hrow : ∀ w, n1 w = BitVec.ofNat 4 op → decodeWord w = .ok (f (fieldNNN w))) :
    EncodesNNN (op * 0x1000) f := by
  intro nnn w hw
  have := nnn.isLt
  rw [hrow w (n1_eq hop (by omega)), fieldNNN_eq (nnn := nnn) (by omega)]

/-- Format `Oxnn`. -/
theorem encodesXNN_of_row {op : Nat} {f : Reg → Byte → Instr} (hop : op < 16)
    (hrow : ∀ w, n1 w = BitVec.ofNat 4 op → decodeWord w = .ok (f (fieldX w) (fieldNN w))) :
    EncodesXNN (op * 0x1000) f := by
  intro x nn w hw
  have := x.isLt; have := nn.isLt
  rw [hrow w (n1_eq hop (by omega)), fieldX_eq (x := x) (by omega), fieldNN_eq (nn := nn) (by omega)]

/-- Format `OxyS`, the low digit `n` fixed by the row. -/
theorem encodesXY_of_row {op n : Nat} {f : Reg → Reg → Instr} (hop : op < 16) (hn : n < 16)
    (hrow : ∀ w, n1 w = BitVec.ofNat 4 op → n4 w = BitVec.ofNat 4 n →
      decodeWord w = .ok (f (fieldX w) (fieldY w))) :
    EncodesXY (op * 0x1000 + n) f := by
  intro x y w hw
  have := x.isLt; have := y.isLt
  rw [hrow w (n1_eq hop (by omega)) (n4_eq hn (by omega)), fieldX_eq (x := x) (by omega),
    fieldY_eq (y := y) (by omega)]

/-! ## Writing PC alone -/

theorem frame_refl (c : Changes) (s : State) : Frame c s s := by simp [Frame]

theorem frame_setPc (s : State) (n : Nat) : Frame { pc := true } s (s.setPc n) := by
  simp [Frame, State.V_congr (s.setPc_v n)]

theorem frame_skipIf (s : State) (b : Bool) : Frame { pc := true } s (s.skipIf b) := by
  cases b with
  | false => exact frame_refl _ s
  | true => exact frame_setPc s _

/-- An instruction that is `skip_if(b)` skips exactly on the condition `b` decides (R131). -/
theorem skipsWhen_of_exec_eq_skipIf {i : Instr} {s : State} {b : Bool} {c : Prop}
    (hexec : exec i s = .next (s.skipIf b)) (hb : b = true ↔ c) : SkipsWhen i s c := by
  refine ⟨s.skipIf b, hexec, fun hc => ?_, fun hc => ?_, frame_skipIf s b⟩
  · simp [hb.2 hc]
  · simp [mt hb.1 hc]

end Sys2Proof.Proofs
end

section
/-! PROOF. The absolute jump and the four comparing skips (spec/41_control_flow.md R132, R134 to R137). -/

namespace Sys2Proof.Proofs

open Sys2Proof Sys2Proof.Machine Sys2Proof.Claims

/-! ## Their rows of the decoder -/

theorem decodeWord_jp_row {w : Word} (h : n1 w = 0x1#4) : decodeWord w = .ok (.jp (fieldNNN w)) := by
  rw [decodeWord, h]; rfl

theorem decodeWord_seImm_row {w : Word} (h : n1 w = 0x3#4) :
    decodeWord w = .ok (.seImm (fieldX w) (fieldNN w)) := by
  rw [decodeWord, h]; rfl

theorem decodeWord_sneImm_row {w : Word} (h : n1 w = 0x4#4) :
    decodeWord w = .ok (.sneImm (fieldX w) (fieldNN w)) := by
  rw [decodeWord, h]; rfl

theorem decodeWord_seReg_row {w : Word} (h : n1 w = 0x5#4) (hlow : n4 w = 0x0#4) :
    decodeWord w = .ok (.seReg (fieldX w) (fieldY w)) := by
  rw [decodeWord, h]; exact if_pos hlow

theorem decodeWord_sneReg_row {w : Word} (h : n1 w = 0x9#4) (hlow : n4 w = 0x0#4) :
    decodeWord w = .ok (.sneReg (fieldX w) (fieldY w)) := by
  rw [decodeWord, h]; exact if_pos hlow

/-! ## The jump -/

/-- An address immediate is a PC as it stands: the reduction of R29 does nothing to it. -/
theorem setPc_addr12_toNat (s : State) (nnn : Addr12) : (s.setPc nnn.toNat).pc.toNat = nnn.toNat := by
  have := nnn.isLt
  simp only [State.setPc_pc, BitVec.toNat_ofNat]; omega

/-- Settles O11: the decoder's row of 1nnn, and the jump as one write of PC. -/
theorem jumpGoesToAddress : Obligations.JumpGoesToAddress :=
  ⟨encodesNNN_of_row (op := 0x1) (by decide) fun _ => decodeWord_jp_row,
    fun nnn s => ⟨s.setPc nnn.toNat, rfl, setPc_addr12_toNat s nnn, frame_setPc s _⟩⟩

/-! ## The comparing skips -/

/-- Settles O13: the decoder's four rows, and each skip as `skip_if` of its comparison. -/
theorem comparingSkipsSkipOne : Obligations.ComparingSkipsSkipOne := by
  refine ⟨encodesXNN_of_row (op := 0x3) (by decide) fun _ => decodeWord_seImm_row,
    encodesXNN_of_row (op := 0x4) (by decide) fun _ => decodeWord_sneImm_row,
    encodesXY_of_row (op := 0x5) (n := 0x0) (by decide) (by decide) fun _ => decodeWord_seReg_row,
    encodesXY_of_row (op := 0x9) (n := 0x0) (by decide) (by decide) fun _ => decodeWord_sneReg_row,
    fun x y nn s => ⟨?_, ?_, ?_, ?_⟩⟩
  · exact skipsWhen_of_exec_eq_skipIf (b := s.V x == nn) rfl beq_iff_eq
  · exact skipsWhen_of_exec_eq_skipIf (b := s.V x != nn) rfl bne_iff_ne
  · exact skipsWhen_of_exec_eq_skipIf (b := s.V x == s.V y) rfl beq_iff_eq
  · exact skipsWhen_of_exec_eq_skipIf (b := s.V x != s.V y) rfl bne_iff_ne

end Sys2Proof.Proofs
end

section
/-! SUPPORT. For the statements about registers and the ALU: the frame of register writes, the flags and the
difference as numbers, and the byte a shift of a register other than VF reads (spec/42_alu.md R150, R151). -/

namespace Sys2Proof.Proofs

open Sys2Proof Sys2Proof.Machine Sys2Proof.Claims

/-! ## Writing registers alone -/

/-- One more write of a register that may change keeps a frame. -/
theorem frame_setV_of_mem {c : Changes} {s t : State} {x : Reg} (b : Byte) (hx : x ∈ c.regs) (h : Frame c s t) :
    Frame c s (t.setV x b) := by
  obtain ⟨hregs, hrest⟩ := h
  refine ⟨fun r hr => ?_, hrest⟩
  rw [State.setV_V, if_neg (ne_of_mem_of_not_mem hx hr).symm, hregs r hr]

theorem frame_setV (s : State) (x : Reg) (b : Byte) : Frame { regs := [x] } s (s.setV x b) :=
  frame_setV_of_mem b (by simp) (frame_refl _ s)

/-- The result, then its flag (8xy4, 8xy5, 8xy7). -/
theorem frame_setV_flag (s : State) (x : Reg) (b flag : Byte) :
    Frame { regs := [x, VF] } s ((s.setV x b).setV VF flag) :=
  frame_setV_of_mem flag (by simp) (frame_setV_of_mem b (by simp) (frame_refl _ s))

/-- The flag, then the result (8xy6, 8xyE). -/
theorem frame_flag_setV (s : State) (x : Reg) (flag b : Byte) :
    Frame { regs := [x, VF] } s ((s.setV VF flag).setV x b) :=
  frame_setV_of_mem b (by simp) (frame_setV_of_mem flag (by simp) (frame_refl _ s))

/-! ## Flags and differences as numbers -/

theorem carryFlag_toNat (a b : Byte) : (carryFlag a b).toNat = if a.toNat + b.toNat > 255 then 1 else 0 := by
  simp [carryFlag, flagByte_toNat]

/-- VF is 0 exactly on a borrow (R151). -/
theorem notBorrowFlag_toNat (a b : Byte) : (notBorrowFlag a b).toNat = if a.toNat < b.toNat then 0 else 1 := by
  rw [notBorrowFlag, flagByte_toNat]
  by_cases h : a.toNat < b.toNat
  · simp [h]
  · simp [h, Nat.le_of_not_lt h]

/-- Bit 7 is set exactly from 128 on. -/
theorem shiftOutLeft_toNat_eq_ite (a : Byte) : (shiftOutLeft a).toNat = if 128 ≤ a.toNat then 1 else 0 := by
  have := a.isLt
  rw [shiftOutLeft_toNat]
  split <;> omega

/-- A difference wraps as the integer difference does modulo 256. -/
theorem byte_sub_toNat (a b : Byte) : ((a - b).toNat : Int) = (a.toNat - b.toNat : Int) % 256 := by
  have := b.isLt
  rw [BitVec.toNat_sub]; omega

/-! ## What a shift reads -/

/-- For x other than F the flag write leaves the operand alone, so `SHIFT_VF_DEST` does not matter. -/
theorem shiftSource_setV_VF (s : State) (flag : Byte) {x : Reg} (hx : x ≠ VF) :
    shiftSource s (s.setV VF flag) x = s.V x := by
  unfold shiftSource
  cases s.cfg.shiftVfDest with
  | prestate => rfl
  | sequential => exact (State.setV_V s VF x flag).trans (if_neg hx)

theorem exec_shr_of_ne_VF {x : Reg} (hx : x ≠ VF) (y : Reg) (s : State) :
    exec (.shr x y) s = .next ((s.setV VF (shiftOutRight (s.V x))).setV x (s.V x >>> 1)) := by
  show execShr x y s = _
  rw [execShr, shiftSource_setV_VF s _ hx]

theorem exec_shl_of_ne_VF {x : Reg} (hx : x ≠ VF) (y : Reg) (s : State) :
    exec (.shl x y) s = .next ((s.setV VF (shiftOutLeft (s.V x))).setV x (s.V x <<< 1)) := by
  show execShl x y s = _
  rw [execShl, shiftSource_setV_VF s _ hx]

end Sys2Proof.Proofs
end

section
/-! PROOF. Loads of a register, the additions, the subtraction Vx - Vy and the shifts of a register other than VF
(spec/42_alu.md R152 to R154, R158 to R160, R163). -/

namespace Sys2Proof.Proofs

open Sys2Proof Sys2Proof.Machine Sys2Proof.Claims

/-! ## Their rows of the decoder -/

theorem decodeWord_ldImm_row {w : Word} (h : n1 w = 0x6#4) :
    decodeWord w = .ok (.ldImm (fieldX w) (fieldNN w)) := by
  rw [decodeWord, h]; rfl

theorem decodeWord_addImm_row {w : Word} (h : n1 w = 0x7#4) :
    decodeWord w = .ok (.addImm (fieldX w) (fieldNN w)) := by
  rw [decodeWord, h]; rfl

theorem decodeWord_ldReg_row {w : Word} (h : n1 w = 0x8#4) (hlow : n4 w = 0x0#4) :
    decodeWord w = .ok (.ldReg (fieldX w) (fieldY w)) := by
  rw [decodeWord, h, hlow]; rfl

theorem decodeWord_addReg_row {w : Word} (h : n1 w = 0x8#4) (hlow : n4 w = 0x4#4) :
    decodeWord w = .ok (.addReg (fieldX w) (fieldY w)) := by
  rw [decodeWord, h, hlow]; rfl

theorem decodeWord_subReg_row {w : Word} (h : n1 w = 0x8#4) (hlow : n4 w = 0x5#4) :
    decodeWord w = .ok (.subReg (fieldX w) (fieldY w)) := by
  rw [decodeWord, h, hlow]; rfl

theorem decodeWord_shr_row {w : Word} (h : n1 w = 0x8#4) (hlow : n4 w = 0x6#4) :
    decodeWord w = .ok (.shr (fieldX w) (fieldY w)) := by
  rw [decodeWord, h, hlow]; rfl

theorem decodeWord_shl_row {w : Word} (h : n1 w = 0x8#4) (hlow : n4 w = 0xE#4) :
    decodeWord w = .ok (.shl (fieldX w) (fieldY w)) := by
  rw [decodeWord, h, hlow]; rfl

/-! ## One register written -/

/-- Settles O14: the decoder's three rows, and each instruction as one write of Vx. -/
theorem loadsAndFlaglessAdd : Obligations.LoadsAndFlaglessAdd := by
  refine ⟨encodesXNN_of_row (op := 0x6) (by decide) fun _ => decodeWord_ldImm_row,
    encodesXNN_of_row (op := 0x7) (by decide) fun _ => decodeWord_addImm_row,
    encodesXY_of_row (op := 0x8) (n := 0x0) (by decide) (by decide) fun _ => decodeWord_ldReg_row,
    fun x y nn s => ⟨?_, ?_, ?_⟩⟩
  · exact ⟨s.setV x nn, rfl, by simp, frame_setV s x _⟩
  · exact ⟨s.setV x (s.V x + nn), rfl, by simp, frame_setV s x _⟩
  · exact ⟨s.setV x (s.V y), rfl, by simp, frame_setV s x _⟩

/-! ## The result, then its flag -/

/-- Settles O16: the decoder's row of 8xy4, and the carry as the write that comes last. -/
theorem addSetsSumAndCarry : Obligations.AddSetsSumAndCarry := by
  refine ⟨encodesXY_of_row (op := 0x8) (n := 0x4) (by decide) (by decide) fun _ => decodeWord_addReg_row,
    fun x y s => ⟨_, rfl, ?_, fun hx => ?_, frame_setV_flag s x _ _⟩⟩
  · simp [carryFlag_toNat]
  · simp [hx]

/-- Settles O17: the decoder's row of 8xy5, and not borrow, of the operands as they were, as the write that comes
last. -/
theorem subtractSetsDifferenceAndNotBorrow : Obligations.SubtractSetsDifferenceAndNotBorrow := by
  refine ⟨encodesXY_of_row (op := 0x8) (n := 0x5) (by decide) (by decide) fun _ => decodeWord_subReg_row,
    fun x y s => ⟨_, rfl, ?_, fun hx => ?_, frame_setV_flag s x _ _⟩⟩
  · simp [notBorrowFlag_toNat]
  · simpa [hx] using byte_sub_toNat (s.V x) (s.V y)

/-! ## The flag, then the shifted byte -/

/-- Settles O19: the decoder's row of 8xy6, and the shift of the byte Vx held at the start, whatever y is. -/
theorem shiftRightHalves : Obligations.ShiftRightHalves := by
  refine ⟨encodesXY_of_row (op := 0x8) (n := 0x6) (by decide) (by decide) fun _ => decodeWord_shr_row,
    fun x y s hx => ⟨_, exec_shr_of_ne_VF hx y s, ?_, ?_, frame_flag_setV s x _ _,
      fun y' => exec_shr_of_ne_VF hx y' s⟩⟩
  · simp [Nat.shiftRight_eq_div_pow]
  · simp [hx.symm, shiftOutRight_toNat]

/-- Settles O20: the decoder's row of 8xyE, and the shift of the byte Vx held at the start, whatever y is. -/
theorem shiftLeftDoubles : Obligations.ShiftLeftDoubles := by
  refine ⟨encodesXY_of_row (op := 0x8) (n := 0xE) (by decide) (by decide) fun _ => decodeWord_shl_row,
    fun x y s hx => ⟨_, exec_shl_of_ne_VF hx y s, ?_, ?_, frame_flag_setV s x _ _,
      fun y' => exec_shl_of_ne_VF hx y' s⟩⟩
  · simp [Nat.shiftLeft_eq]
  · simp [hx.symm, shiftOutLeft_toNat_eq_ite]

end Sys2Proof.Proofs
end

section
/-! SUPPORT. For the statements about I: a write of I as a number, and its frame (spec/43_index_memory.md R180). -/

namespace Sys2Proof.Proofs

open Sys2Proof Sys2Proof.Machine Sys2Proof.Claims

/-- What a write of I stores, under either value of `I_MASK` (R180). -/
theorem setI_i_toNat (s : State) (n : Nat) : (s.setI n).i.toNat = masked s.cfg n := by
  rw [State.setI_i, masked]
  cases s.cfg.iMask with
  | full => simp [IMask.toWord, Nat.and_two_pow_sub_one_eq_mod _ 16]
  | low12 => simp [IMask.toWord, Nat.and_two_pow_sub_one_eq_mod _ 12]

/-- A value below 0x1000 is I as it stands, under either value of `I_MASK`. -/
theorem masked_of_lt (c : Config) {n : Nat} (h : n < 0x1000) : masked c n = n := by
  unfold masked
  split <;> omega

theorem frame_setI (s : State) (n : Nat) : Frame { i := true } s (s.setI n) := by
  simp [Frame, State.V_congr (s.setI_v n)]

end Sys2Proof.Proofs
end

section
/-! PROOF. The load of I (spec/43_index_memory.md R181). -/

namespace Sys2Proof.Proofs

open Sys2Proof Sys2Proof.Machine Sys2Proof.Claims

theorem decodeWord_ldI_row {w : Word} (h : n1 w = 0xA#4) : decodeWord w = .ok (.ldI (fieldNNN w)) := by
  rw [decodeWord, h]; rfl

/-- Settles O23: the decoder's row of Annn, and the load as one write of I that no mask changes. -/
theorem loadIndexSetsAddress : Obligations.LoadIndexSetsAddress :=
  ⟨encodesNNN_of_row (op := 0xA) (by decide) fun _ => decodeWord_ldI_row,
    fun nnn s => ⟨s.setI nnn.toNat, rfl, (setI_i_toNat s _).trans (masked_of_lt s.cfg nnn.isLt), frame_setI s _⟩⟩

end Sys2Proof.Proofs
end

section
/-! PROOF. The clear of the display (spec/44_display.md R201). -/

namespace Sys2Proof.Proofs

open Sys2Proof Sys2Proof.Machine Sys2Proof.Claims

/-- The read port over a buffer with every cell off: OFF_VAL at each of its bytes (R33). -/
theorem displayRead_blank (s : State) :
    displayRead { s with pix := Display.blank s.cfg.dispW s.cfg.dispH } =
      (s.cfg.dispW, s.cfg.dispH, List.replicate (s.cfg.dispW * s.cfg.dispH) 0x00) := by
  simp [displayRead, Display.blank, intensity, Nat.mul_comm]

theorem frame_pix (s : State) (d : Display) : Frame { pix := true } s { s with pix := d } := by
  simp [Frame, State.V]

/-- Settles O32: the decoder's row of 00E0, and the clear as one write of the whole buffer. -/
theorem clearTurnsEveryCellOff : Obligations.ClearTurnsEveryCellOff :=
  ⟨rfl, fun s => ⟨_, rfl, Display.cell_blank _ _, displayRead_blank s, frame_pix s _⟩⟩

end Sys2Proof.Proofs
end

section
/-! SUPPORT. For the statements about the instructions Fxss: the words of that format (spec/30_encoding.md R72, R77),
the frames of the writes of one field, and the tick of an instruction that completes (spec/40_pipeline.md R110). -/

namespace Sys2Proof.Proofs

open Sys2Proof Sys2Proof.Machine Sys2Proof.Claims

/-- Format `OxSS`, the low byte `ss` fixed by the row. -/
theorem encodesX_of_row {op ss : Nat} {f : Reg → Instr} (hop : op < 16) (hss : ss < 256)
    (hrow : ∀ w, n1 w = BitVec.ofNat 4 op → fieldNN w = BitVec.ofNat 8 ss → decodeWord w = .ok (f (fieldX w))) :
    EncodesX (op * 0x1000 + ss) f := by
  intro x w hw
  have := x.isLt
  have hlow : fieldNN w = BitVec.ofNat 8 ss := fieldNN_eq (by rw [BitVec.toNat_ofNat]; omega)
  rw [hrow w (n1_eq hop (by omega)) hlow, fieldX_eq (x := x) (by omega)]

theorem frame_dt (s : State) (b : Byte) : Frame { dt := true } s { s with dt := b } := by
  simp [Frame, State.V]

theorem frame_st (s : State) (b : Byte) : Frame { st := true } s { s with st := b } := by
  simp [Frame, State.V]

theorem frame_waitKey (s : State) (b : Bool) : Frame { waitKey := true } s { s with waitKey := b } := by
  simp [Frame, State.V]

/-- The tick of an instruction that leaves the wait flag clear ends in the state the instruction leaves. -/
theorem step_of_exec_not_waiting {s t : State} {i : Instr} (h : Executes s i)
    (hexec : exec i (entry s s.fetchWord) = .next t) (hwait : t.waitKey = false) : step s = .next t := by
  rw [step_of_executes h, hexec, rolledBack, State.rollBack, hwait]; rfl

/-- The tick of an instruction that arms the wait ends with PC moved back to it (R110). -/
theorem step_of_exec_waiting {s t : State} {i : Instr} (h : Executes s i)
    (hexec : exec i (entry s s.fetchWord) = .next t) (hwait : t.waitKey = true) :
    step s = .next { t with pc := t.pc - 2 } := by
  rw [step_of_executes h, hexec, rolledBack, State.rollBack, hwait]; rfl

end Sys2Proof.Proofs
end

section
/-! PROOF. The timer instructions Fx07, Fx15 and Fx18 (spec/45_timers_input.md R223, R226, R227). -/

namespace Sys2Proof.Proofs

open Sys2Proof Sys2Proof.Machine Sys2Proof.Claims

/-! ## Their rows of the decoder -/

theorem decodeWord_ldVxDt_row {w : Word} (h : n1 w = 0xF#4) (hlow : fieldNN w = 0x07#8) :
    decodeWord w = .ok (.ldVxDt (fieldX w)) := by
  rw [decodeWord, h, hlow]; rfl

theorem decodeWord_ldDtVx_row {w : Word} (h : n1 w = 0xF#4) (hlow : fieldNN w = 0x15#8) :
    decodeWord w = .ok (.ldDtVx (fieldX w)) := by
  rw [decodeWord, h, hlow]; rfl

theorem decodeWord_ldStVx_row {w : Word} (h : n1 w = 0xF#4) (hlow : fieldNN w = 0x18#8) :
    decodeWord w = .ok (.ldStVx (fieldX w)) := by
  rw [decodeWord, h, hlow]; rfl

/-- Settles O39: the decoder's three rows, each instruction as one write, and its tick as that write in `entry`,
where the timer stage is already done. -/
theorem timerInstructionsReadAndSet : Obligations.TimerInstructionsReadAndSet := by
  refine ⟨encodesX_of_row (op := 0xF) (ss := 0x07) (by decide) (by decide) fun _ => decodeWord_ldVxDt_row,
    encodesX_of_row (op := 0xF) (ss := 0x15) (by decide) (by decide) fun _ => decodeWord_ldDtVx_row,
    encodesX_of_row (op := 0xF) (ss := 0x18) (by decide) (by decide) fun _ => decodeWord_ldStVx_row,
    fun x s => ⟨?_, ?_, ?_, fun h => ?_, fun h => ?_, fun h => ?_⟩⟩
  · exact ⟨s.setV x s.dt, rfl, by simp, frame_setV s x _⟩
  · exact ⟨{ s with dt := s.V x }, rfl, rfl, frame_dt s _⟩
  · exact ⟨{ s with st := s.V x }, rfl, rfl, frame_st s _⟩
  · refine ⟨(entry s s.fetchWord).setV x (down s.dt), step_of_exec_not_waiting h rfl rfl, ?_, ?_⟩
    · simp [down_toNat]
    · simp [entry]
  · exact ⟨{ entry s s.fetchWord with dt := s.V x }, step_of_exec_not_waiting h rfl rfl, rfl, rfl⟩
  · exact ⟨{ entry s s.fetchWord with st := s.V x }, step_of_exec_not_waiting h rfl rfl, rfl, rfl⟩

end Sys2Proof.Proofs
end

section
/-! PROOF. The wait for a key Fx0A (spec/45_timers_input.md R224, R228). -/

namespace Sys2Proof.Proofs

open Sys2Proof Sys2Proof.Machine Sys2Proof.Claims

theorem decodeWord_ldVxK_row {w : Word} (h : n1 w = 0xF#4) (hlow : fieldNN w = 0x0A#8) :
    decodeWord w = .ok (.ldVxK (fieldX w)) := by
  rw [decodeWord, h, hlow]; rfl

/-- A key index is the byte it is loaded as. -/
theorem setV_key_toNat (s : State) (x : Reg) (k : Fin 16) : ((s.setV x (BitVec.ofNat 8 k.val)).V x).toNat = k.val := by
  have := k.isLt
  rw [State.setV_V, if_pos rfl, BitVec.toNat_ofNat]; omega

/-- The dispatch sees the key matrix as it was before the tick. -/
theorem entry_firstKey (s : State) (w : Word) : (entry s w).firstKey = s.firstKey := rfl

/-- Settles O40: with a key pressed Fx0A is a load of the lowest, with none it arms the wait, and the tick rolls PC
back in the second case only. -/
theorem waitForKeyTakesLowestOrArms : Obligations.WaitForKeyTakesLowestOrArms := by
  refine ⟨encodesX_of_row (op := 0xF) (ss := 0x0A) (by decide) (by decide) fun _ => decodeWord_ldVxK_row,
    fun x s => ⟨fun k hk hlowest => ?pressed, fun hnone => ?unpressed⟩⟩
  case pressed =>
    have hfirst : s.firstKey = some k.val := State.firstKey_eq_some hk hlowest
    refine ⟨⟨_, exec_ldVxK_key hfirst, setV_key_toNat s x k, frame_setV s x _⟩, fun h => ?_⟩
    have hexec := exec_ldVxK_key (x := x) ((entry_firstKey s s.fetchWord).trans hfirst)
    exact ⟨_, step_of_exec_not_waiting h hexec rfl, setV_key_toNat _ x k, rfl, rfl⟩
  case unpressed =>
    have hfirst : s.firstKey = none := State.firstKey_eq_none hnone
    refine ⟨⟨_, exec_ldVxK_arms hfirst, rfl, frame_waitKey s true⟩, fun h => ?_⟩
    have hexec := exec_ldVxK_arms (x := x) ((entry_firstKey s s.fetchWord).trans hfirst)
    exact ⟨_, step_of_exec_waiting h hexec rfl, rfl, BitVec.add_sub_cancel s.pc 2, rfl⟩

end Sys2Proof.Proofs
end

section
/-! PROOF. The load of a program by the host (spec/70_reset_and_hazards.md R274). -/

namespace Sys2Proof.Proofs

open Sys2Proof Sys2Proof.Machine

/-- A program that fits is written at LOAD_ADDR, and PC points there (R274). -/
theorem hostOp_load_fits {bytes : List Byte} {s : State} (h : s.cfg.loadAddr + bytes.length ≤ memSize) :
    hostOp (.load bytes) s =
      .next { s.setPc s.cfg.loadAddr with mem := s.mem.writeBytes s.cfg.loadAddr bytes } := by
  show hostLoad bytes s = _
  rw [hostLoad, if_pos h]

/-- PC holds every memory address as it is. -/
theorem setPc_toNat_of_lt_memSize (s : State) {a : Nat} (h : a < memSize) : (s.setPc a).pc.toNat = a := by
  rw [State.setPc_pc, BitVec.toNat_ofNat]
  exact Nat.mod_eq_of_lt (h.trans (by decide))

/-- Settles O54: the load of a program that fits is one run of writes, read back byte by byte. -/
theorem loadCopiesProgram : Obligations.LoadCopiesProgram := by
  intro bytes s hwf haddr hfits
  refine ⟨_, hostOp_load_fits hfits, setPc_toNat_of_lt_memSize s haddr, fun j hj => ?_⟩
  calc (s.mem.writeBytes s.cfg.loadAddr bytes).get (s.cfg.loadAddr + j)
      = bytes.getD j 0 := Memory.get_writeBytes bytes hwf (.inr hfits) hj 0
    _ = bytes[j] := List.getD_eq_getElem bytes 0 hj

end Sys2Proof.Proofs
end

section
/-! SUPPORT. The rows of the decoder not stated above (spec/30_encoding.md R77), and what every row rests on: a format
is made of its fields, so decoding and encoding undo each other row by row (R72, R73, R78). -/

namespace Sys2Proof.Proofs

open Sys2Proof Sys2Proof.Machine Sys2Proof.Claims

/-! ## Rows of the decoder -/

theorem decodeWord_orReg_row {w : Word} (h : n1 w = 0x8#4) (hlow : n4 w = 0x1#4) :
    decodeWord w = .ok (.orReg (fieldX w) (fieldY w)) := by
  rw [decodeWord, h, hlow]; rfl

theorem decodeWord_andReg_row {w : Word} (h : n1 w = 0x8#4) (hlow : n4 w = 0x2#4) :
    decodeWord w = .ok (.andReg (fieldX w) (fieldY w)) := by
  rw [decodeWord, h, hlow]; rfl

theorem decodeWord_xorReg_row {w : Word} (h : n1 w = 0x8#4) (hlow : n4 w = 0x3#4) :
    decodeWord w = .ok (.xorReg (fieldX w) (fieldY w)) := by
  rw [decodeWord, h, hlow]; rfl

theorem decodeWord_subn_row {w : Word} (h : n1 w = 0x8#4) (hlow : n4 w = 0x7#4) :
    decodeWord w = .ok (.subn (fieldX w) (fieldY w)) := by
  rw [decodeWord, h, hlow]; rfl

theorem decodeWord_jpV0_row {w : Word} (h : n1 w = 0xB#4) : decodeWord w = .ok (.jpV0 (fieldNNN w)) := by
  rw [decodeWord, h]; rfl

theorem decodeWord_rnd_row {w : Word} (h : n1 w = 0xC#4) :
    decodeWord w = .ok (.rnd (fieldX w) (fieldNN w)) := by
  rw [decodeWord, h]; rfl

theorem decodeWord_drw_row {w : Word} (h : n1 w = 0xD#4) :
    decodeWord w = .ok (.drw (fieldX w) (fieldY w) (fieldN w)) := by
  rw [decodeWord, h]; rfl

theorem decodeWord_skp_row {w : Word} (h : n1 w = 0xE#4) (hlow : fieldNN w = 0x9E#8) :
    decodeWord w = .ok (.skp (fieldX w)) := by
  rw [decodeWord, h, hlow]; rfl

theorem decodeWord_sknp_row {w : Word} (h : n1 w = 0xE#4) (hlow : fieldNN w = 0xA1#8) :
    decodeWord w = .ok (.sknp (fieldX w)) := by
  rw [decodeWord, h, hlow]; rfl

theorem decodeWord_addI_row {w : Word} (h : n1 w = 0xF#4) (hlow : fieldNN w = 0x1E#8) :
    decodeWord w = .ok (.addI (fieldX w)) := by
  rw [decodeWord, h, hlow]; rfl

theorem decodeWord_ldF_row {w : Word} (h : n1 w = 0xF#4) (hlow : fieldNN w = 0x29#8) :
    decodeWord w = .ok (.ldF (fieldX w)) := by
  rw [decodeWord, h, hlow]; rfl

theorem decodeWord_ldB_row {w : Word} (h : n1 w = 0xF#4) (hlow : fieldNN w = 0x33#8) :
    decodeWord w = .ok (.ldB (fieldX w)) := by
  rw [decodeWord, h, hlow]; rfl

theorem decodeWord_storeRegs_row {w : Word} (h : n1 w = 0xF#4) (hlow : fieldNN w = 0x55#8) :
    decodeWord w = .ok (.storeRegs (fieldX w)) := by
  rw [decodeWord, h, hlow]; rfl

theorem decodeWord_loadRegs_row {w : Word} (h : n1 w = 0xF#4) (hlow : fieldNN w = 0x65#8) :
    decodeWord w = .ok (.loadRegs (fieldX w)) := by
  rw [decodeWord, h, hlow]; rfl

/-- Format `Oxyn`. -/
theorem encodesXYN_of_row {op : Nat} {f : Reg → Reg → Fin 16 → Instr} (hop : op < 16)
    (hrow : ∀ w, n1 w = BitVec.ofNat 4 op → decodeWord w = .ok (f (fieldX w) (fieldY w) (fieldN w))) :
    EncodesXYN (op * 0x1000) f := by
  intro x y n w hw
  have := x.isLt; have := y.isLt; have := n.isLt
  rw [hrow w (n1_eq hop (by omega)), fieldX_eq (x := x) (by omega), fieldY_eq (y := y) (by omega),
    fieldN_eq (n := n) (by omega)]

/-! ## A word is the sum of its fields -/

/-- The major opcode of a row as a number. -/
theorem major_of_n1 {w : Word} {op : Nat} (hop : op < 16) (h : n1 w = BitVec.ofNat 4 op) :
    w.toNat / 4096 = op := by
  rw [← n1_toNat, h, BitVec.toNat_ofNat]; omega

theorem wordNNN_fields {w : Word} {op : Nat} (hop : op < 16) (h : n1 w = BitVec.ofNat 4 op) :
    wordNNN op (fieldNNN w) = w := by
  have := major_of_n1 hop h
  apply BitVec.eq_of_toNat_eq
  rw [wordNNN_toNat op _ hop, fieldNNN_toNat]; omega

theorem wordXNN_fields {w : Word} {op : Nat} (hop : op < 16) (h : n1 w = BitVec.ofNat 4 op) :
    wordXNN op (fieldX w) (fieldNN w) = w := by
  have := major_of_n1 hop h
  apply BitVec.eq_of_toNat_eq
  rw [wordXNN_toNat op _ _ hop, fieldX_val, fieldNN_toNat]; omega

theorem wordXYN_fields {w : Word} {op : Nat} (hop : op < 16) (h : n1 w = BitVec.ofNat 4 op) :
    wordXYN op (fieldX w) (fieldY w) (fieldN w).val = w := by
  have := major_of_n1 hop h
  apply BitVec.eq_of_toNat_eq
  rw [wordXYN_toNat op _ _ _ hop (fieldN w).isLt, fieldX_val, fieldY_val, fieldN_val]; omega

/-- The low byte fixed by the row. -/
theorem wordXNN_of_low {w : Word} {op : Nat} {ss : Byte} (hop : op < 16) (h : n1 w = BitVec.ofNat 4 op)
    (hlow : fieldNN w = ss) : wordXNN op (fieldX w) ss = w :=
  hlow ▸ wordXNN_fields hop h

/-- The low digit fixed by the row. -/
theorem wordXYN_of_low {w : Word} {op n : Nat} (hop : op < 16) (hn : n < 16) (h : n1 w = BitVec.ofNat 4 op)
    (hlow : n4 w = BitVec.ofNat 4 n) : wordXYN op (fieldX w) (fieldY w) n = w := by
  have hval : (fieldN w).val = n := by
    rw [fieldN_val, ← n4_toNat, hlow, BitVec.toNat_ofNat]; omega
  simpa only [hval] using wordXYN_fields hop h

end Sys2Proof.Proofs
end

section
/-! PROOF. Decoding and encoding undo each other, and the opcode map decides which words decode
(spec/30_encoding.md R71 to R80). -/

namespace Sys2Proof.Proofs

open Sys2Proof Sys2Proof.Machine Sys2Proof.Claims

/-! ## Decoding an encoded word -/

theorem decodeWord_wordNNN {op : Nat} {f : Addr12 → Instr} (hop : op < 16)
    (hrow : ∀ w, n1 w = BitVec.ofNat 4 op → decodeWord w = .ok (f (fieldNNN w))) (nnn : Addr12) :
    decodeWord (wordNNN op nnn) = .ok (f nnn) :=
  encodesNNN_of_row hop hrow nnn _ (wordNNN_toNat op nnn hop)

theorem decodeWord_wordXNN {op : Nat} {f : Reg → Byte → Instr} (hop : op < 16)
    (hrow : ∀ w, n1 w = BitVec.ofNat 4 op → decodeWord w = .ok (f (fieldX w) (fieldNN w))) (x : Reg) (nn : Byte) :
    decodeWord (wordXNN op x nn) = .ok (f x nn) :=
  encodesXNN_of_row hop hrow x nn _ (by rw [wordXNN_toNat op x nn hop]; omega)

theorem decodeWord_wordX {op : Nat} {ss : Byte} {f : Reg → Instr} (hop : op < 16)
    (hrow : ∀ w, n1 w = BitVec.ofNat 4 op → fieldNN w = ss → decodeWord w = .ok (f (fieldX w))) (x : Reg) :
    decodeWord (wordXNN op x ss) = .ok (f x) :=
  encodesX_of_row (ss := ss.toNat) hop ss.isLt (fun w h hlow => hrow w h (by simpa using hlow)) x _
    (by rw [wordXNN_toNat op x ss hop]; omega)

theorem decodeWord_wordXY {op n : Nat} {f : Reg → Reg → Instr} (hop : op < 16) (hn : n < 16)
    (hrow : ∀ w, n1 w = BitVec.ofNat 4 op → n4 w = BitVec.ofNat 4 n → decodeWord w = .ok (f (fieldX w) (fieldY w)))
    (x y : Reg) : decodeWord (wordXYN op x y n) = .ok (f x y) :=
  encodesXY_of_row hop hn hrow x y _ (by rw [wordXYN_toNat op x y n hop hn]; omega)

theorem decodeWord_wordXYN {op : Nat} {f : Reg → Reg → Fin 16 → Instr} (hop : op < 16)
    (hrow : ∀ w, n1 w = BitVec.ofNat 4 op → decodeWord w = .ok (f (fieldX w) (fieldY w) (fieldN w)))
    (x y : Reg) (n : Fin 16) : decodeWord (wordXYN op x y n.val) = .ok (f x y n) :=
  encodesXYN_of_row hop hrow x y n _ (by rw [wordXYN_toNat op x y n.val hop n.isLt]; omega)

/-- The word of an instruction decodes to it: each by the format and the row it belongs to. -/
theorem decodeWord_encode (i : Instr) : decodeWord (encode i) = .ok i := by
  cases i with
  | clrscr => rfl
  | jp nnn => exact decodeWord_wordNNN (by decide) (fun _ => decodeWord_jp_row) nnn
  | seImm x nn => exact decodeWord_wordXNN (by decide) (fun _ => decodeWord_seImm_row) x nn
  | sneImm x nn => exact decodeWord_wordXNN (by decide) (fun _ => decodeWord_sneImm_row) x nn
  | seReg x y => exact decodeWord_wordXY (by decide) (by decide) (fun _ => decodeWord_seReg_row) x y
  | ldImm x nn => exact decodeWord_wordXNN (by decide) (fun _ => decodeWord_ldImm_row) x nn
  | addImm x nn => exact decodeWord_wordXNN (by decide) (fun _ => decodeWord_addImm_row) x nn
  | ldReg x y => exact decodeWord_wordXY (by decide) (by decide) (fun _ => decodeWord_ldReg_row) x y
  | orReg x y => exact decodeWord_wordXY (by decide) (by decide) (fun _ => decodeWord_orReg_row) x y
  | andReg x y => exact decodeWord_wordXY (by decide) (by decide) (fun _ => decodeWord_andReg_row) x y
  | xorReg x y => exact decodeWord_wordXY (by decide) (by decide) (fun _ => decodeWord_xorReg_row) x y
  | addReg x y => exact decodeWord_wordXY (by decide) (by decide) (fun _ => decodeWord_addReg_row) x y
  | subReg x y => exact decodeWord_wordXY (by decide) (by decide) (fun _ => decodeWord_subReg_row) x y
  | shr x y => exact decodeWord_wordXY (by decide) (by decide) (fun _ => decodeWord_shr_row) x y
  | subn x y => exact decodeWord_wordXY (by decide) (by decide) (fun _ => decodeWord_subn_row) x y
  | shl x y => exact decodeWord_wordXY (by decide) (by decide) (fun _ => decodeWord_shl_row) x y
  | sneReg x y => exact decodeWord_wordXY (by decide) (by decide) (fun _ => decodeWord_sneReg_row) x y
  | ldI nnn => exact decodeWord_wordNNN (by decide) (fun _ => decodeWord_ldI_row) nnn
  | jpV0 nnn => exact decodeWord_wordNNN (by decide) (fun _ => decodeWord_jpV0_row) nnn
  | rnd x nn => exact decodeWord_wordXNN (by decide) (fun _ => decodeWord_rnd_row) x nn
  | drw x y n => exact decodeWord_wordXYN (by decide) (fun _ => decodeWord_drw_row) x y n
  | skp x => exact decodeWord_wordX (by decide) (fun _ => decodeWord_skp_row) x
  | sknp x => exact decodeWord_wordX (by decide) (fun _ => decodeWord_sknp_row) x
  | ldVxDt x => exact decodeWord_wordX (by decide) (fun _ => decodeWord_ldVxDt_row) x
  | ldVxK x => exact decodeWord_wordX (by decide) (fun _ => decodeWord_ldVxK_row) x
  | ldDtVx x => exact decodeWord_wordX (by decide) (fun _ => decodeWord_ldDtVx_row) x
  | ldStVx x => exact decodeWord_wordX (by decide) (fun _ => decodeWord_ldStVx_row) x
  | addI x => exact decodeWord_wordX (by decide) (fun _ => decodeWord_addI_row) x
  | ldF x => exact decodeWord_wordX (by decide) (fun _ => decodeWord_ldF_row) x
  | ldB x => exact decodeWord_wordX (by decide) (fun _ => decodeWord_ldB_row) x
  | storeRegs x => exact decodeWord_wordX (by decide) (fun _ => decodeWord_storeRegs_row) x
  | loadRegs x => exact decodeWord_wordX (by decide) (fun _ => decodeWord_loadRegs_row) x

/-- Settles O2: the two bytes make the word of the instruction again, and that word decodes by its row. -/
theorem decodeEncodeRoundTrip : Obligations.DecodeEncodeRoundTrip := by
  intro i rest
  rw [encodeBytes, List.cons_append, List.cons_append, List.nil_append, decode_pair, wordOfBytes_split,
    decodeWord_encode]

/-! ## Encoding a decoded word -/

/-- What a word decodes to has that word: branch by branch of the decoder (numbered in its order), the format of the
branch is made of the fields. -/
theorem encode_of_decodeWord {w : Word} {i : Instr} (h : decodeWord w = .ok i) : encode i = w := by
  unfold decodeWord at h
  split at h
  case h_1 =>
    split at h <;> cases h
    exact Eq.symm ‹w = 0x00E0#16›
  -- the formats `Onnn`, `Oxnn` and `Oxyn`: no field is fixed but the major opcode
  case h_2 hn | h_10 hn | h_11 hn => cases h; exact wordNNN_fields (by decide) hn
  case h_3 hn | h_4 hn | h_6 hn | h_7 hn | h_12 hn => cases h; exact wordXNN_fields (by decide) hn
  case h_13 hn => cases h; exact wordXYN_fields (by decide) hn
  -- the formats `OxyS` and `OxSS`: the low digit or byte is fixed too
  case h_5 hn | h_9 hn | h_8 hn => split at h <;> cases h <;> exact wordXYN_of_low (by decide) (by decide) hn ‹_›
  case h_14 hn | h_15 hn => split at h <;> cases h <;> exact wordXNN_of_low (by decide) hn ‹_›
  case h_16 => cases h

/-- The bytes of a word of two bytes. -/
theorem encodeBytes_of_encode {i : Instr} {hi lo : Byte} (h : encode i = wordOfBytes hi lo) :
    encodeBytes i = [hi, lo] := by
  have := hi.isLt; have := lo.isLt
  have hhi : highByte (wordOfBytes hi lo) = hi := by
    apply BitVec.eq_of_toNat_eq
    rw [highByte_toNat, wordOfBytes_toNat]; omega
  have hlo : lowByte (wordOfBytes hi lo) = lo := by
    apply BitVec.eq_of_toNat_eq
    rw [lowByte_toNat, wordOfBytes_toNat]; omega
  rw [encodeBytes, h, hhi, hlo]

/-- Settles O3: fewer than two bytes decode to nothing, and two bytes are those of the word they make. -/
theorem encodeDecodeRoundTrip : Obligations.EncodeDecodeRoundTrip := by
  intro bytes rest i h
  match bytes with
  | [] => cases h
  | [_] => cases h
  | hi :: lo :: tail =>
    rw [decode_pair] at h
    cases hd : decodeWord (wordOfBytes hi lo) with
    | error e => rw [hd] at h; cases h
    | ok j =>
      rw [hd] at h
      cases h
      rw [encodeBytes_of_encode (encode_of_decodeWord hd)]; rfl

/-! ## The opcode map -/

/-- Every instruction's word selects its row. -/
theorem encode_selects_row (i : Instr) : Laws.RowOf.Statement i := by
  cases i with
  | clrscr => exact Laws.RowOf.clrscr
  | jp nnn => exact Laws.RowOf.jp nnn
  | seImm x nn => exact Laws.RowOf.seImm x nn
  | sneImm x nn => exact Laws.RowOf.sneImm x nn
  | seReg x y => exact Laws.RowOf.seReg x y
  | ldImm x nn => exact Laws.RowOf.ldImm x nn
  | addImm x nn => exact Laws.RowOf.addImm x nn
  | ldReg x y => exact Laws.RowOf.ldReg x y
  | orReg x y => exact Laws.RowOf.orReg x y
  | andReg x y => exact Laws.RowOf.andReg x y
  | xorReg x y => exact Laws.RowOf.xorReg x y
  | addReg x y => exact Laws.RowOf.addReg x y
  | subReg x y => exact Laws.RowOf.subReg x y
  | shr x y => exact Laws.RowOf.shr x y
  | subn x y => exact Laws.RowOf.subn x y
  | shl x y => exact Laws.RowOf.shl x y
  | sneReg x y => exact Laws.RowOf.sneReg x y
  | ldI nnn => exact Laws.RowOf.ldI nnn
  | jpV0 nnn => exact Laws.RowOf.jpV0 nnn
  | rnd x nn => exact Laws.RowOf.rnd x nn
  | drw x y n => exact Laws.RowOf.drw x y n
  | skp x => exact Laws.RowOf.skp x
  | sknp x => exact Laws.RowOf.sknp x
  | ldVxDt x => exact Laws.RowOf.ldVxDt x
  | ldVxK x => exact Laws.RowOf.ldVxK x
  | ldDtVx x => exact Laws.RowOf.ldDtVx x
  | ldStVx x => exact Laws.RowOf.ldStVx x
  | addI x => exact Laws.RowOf.addI x
  | ldF x => exact Laws.RowOf.ldF x
  | ldB x => exact Laws.RowOf.ldB x
  | storeRegs x => exact Laws.RowOf.storeRegs x
  | loadRegs x => exact Laws.RowOf.loadRegs x

/-- The words a row selects that fixes the major opcode. -/
theorem decodes_of_major {b : Word} {op : Nat} {f : Word → Instr} (hop : op < 16) (hb : b.toNat = op * 4096)
    (hrow : ∀ w, n1 w = BitVec.ofNat 4 op → decodeWord w = .ok (f w)) (w : Word) (h : w &&& 0xF000#16 = b) :
    ∃ i, decodeWord w = .ok i := by
  have := and_major w
  rw [h] at this
  exact ⟨_, hrow w (n1_eq hop (by omega))⟩

/-- The words a row selects that fixes the major opcode and the low digit. -/
theorem decodes_of_majorLow {b : Word} {op n : Nat} {f : Word → Instr} (hop : op < 16) (hn : n < 16)
    (hb : b.toNat = op * 4096 + n)
    (hrow : ∀ w, n1 w = BitVec.ofNat 4 op → n4 w = BitVec.ofNat 4 n → decodeWord w = .ok (f w))
    (w : Word) (h : w &&& 0xF00F#16 = b) : ∃ i, decodeWord w = .ok i := by
  have := and_majorLow w
  rw [h] at this
  exact ⟨_, hrow w (n1_eq hop (by omega)) (n4_eq hn (by omega))⟩

/-- The words a row selects that fixes the major opcode and the low byte. -/
theorem decodes_of_majorByte {b : Word} {op : Nat} {ss : Byte} {f : Word → Instr} (hop : op < 16)
    (hb : b.toNat = op * 4096 + ss.toNat)
    (hrow : ∀ w, n1 w = BitVec.ofNat 4 op → fieldNN w = ss → decodeWord w = .ok (f w))
    (w : Word) (h : w &&& 0xF0FF#16 = b) : ∃ i, decodeWord w = .ok i := by
  have hss := ss.isLt
  have := and_majorByte w
  rw [h] at this
  exact ⟨_, hrow w (n1_eq hop (by omega)) (fieldNN_eq (by omega))⟩

/-- The one row that fixes the whole word, 00E0. -/
theorem decodes_of_whole (w : Word) (h : w &&& 0xFFFF#16 = 0x00E0#16) : ∃ i, decodeWord w = .ok i := by
  obtain rfl : w = 0x00E0#16 := by rwa [show (0xFFFF#16) = BitVec.allOnes 16 from rfl, BitVec.and_allOnes] at h
  exact ⟨.clrscr, rfl⟩

/-- Every row of the opcode map, in its order, selects only words that decode. -/
theorem decodes_of_row : ∀ r ∈ opcodeMap, ∀ w : Word, w &&& r.mask = r.bits → ∃ i, decodeWord w = .ok i := by
  simp only [opcodeMap, opcodeMapLow, opcodeMapHigh, List.forall_mem_append, List.forall_mem_cons]
  exact ⟨⟨decodes_of_whole,
    decodes_of_major (by decide) rfl fun _ => decodeWord_jp_row,
    decodes_of_major (by decide) rfl fun _ => decodeWord_seImm_row,
    decodes_of_major (by decide) rfl fun _ => decodeWord_sneImm_row,
    decodes_of_majorLow (by decide) (by decide) rfl fun _ => decodeWord_seReg_row,
    decodes_of_major (by decide) rfl fun _ => decodeWord_ldImm_row,
    decodes_of_major (by decide) rfl fun _ => decodeWord_addImm_row,
    decodes_of_majorLow (by decide) (by decide) rfl fun _ => decodeWord_ldReg_row,
    decodes_of_majorLow (by decide) (by decide) rfl fun _ => decodeWord_orReg_row,
    decodes_of_majorLow (by decide) (by decide) rfl fun _ => decodeWord_andReg_row,
    decodes_of_majorLow (by decide) (by decide) rfl fun _ => decodeWord_xorReg_row,
    decodes_of_majorLow (by decide) (by decide) rfl fun _ => decodeWord_addReg_row,
    decodes_of_majorLow (by decide) (by decide) rfl fun _ => decodeWord_subReg_row,
    decodes_of_majorLow (by decide) (by decide) rfl fun _ => decodeWord_shr_row,
    decodes_of_majorLow (by decide) (by decide) rfl fun _ => decodeWord_subn_row,
    decodes_of_majorLow (by decide) (by decide) rfl fun _ => decodeWord_shl_row,
    decodes_of_majorLow (by decide) (by decide) rfl fun _ => decodeWord_sneReg_row, by simp⟩,
    decodes_of_major (by decide) rfl fun _ => decodeWord_ldI_row,
    decodes_of_major (by decide) rfl fun _ => decodeWord_jpV0_row,
    decodes_of_major (by decide) rfl fun _ => decodeWord_rnd_row,
    decodes_of_major (by decide) rfl fun _ => decodeWord_drw_row,
    decodes_of_majorByte (by decide) rfl fun _ => decodeWord_skp_row,
    decodes_of_majorByte (by decide) rfl fun _ => decodeWord_sknp_row,
    decodes_of_majorByte (by decide) rfl fun _ => decodeWord_ldVxDt_row,
    decodes_of_majorByte (by decide) rfl fun _ => decodeWord_ldVxK_row,
    decodes_of_majorByte (by decide) rfl fun _ => decodeWord_ldDtVx_row,
    decodes_of_majorByte (by decide) rfl fun _ => decodeWord_ldStVx_row,
    decodes_of_majorByte (by decide) rfl fun _ => decodeWord_addI_row,
    decodes_of_majorByte (by decide) rfl fun _ => decodeWord_ldF_row,
    decodes_of_majorByte (by decide) rfl fun _ => decodeWord_ldB_row,
    decodes_of_majorByte (by decide) rfl fun _ => decodeWord_storeRegs_row,
    decodes_of_majorByte (by decide) rfl fun _ => decodeWord_loadRegs_row, by simp⟩

/-- Two rows select a common word only if their fixed bits agree where both masks look. -/
theorem bits_agree_of_selected {r q : OpcodeRow} {w : Word} (hr : w &&& r.mask = r.bits)
    (hq : w &&& q.mask = q.bits) : r.bits &&& q.mask = q.bits &&& r.mask := by
  rw [← hr, ← hq, BitVec.and_assoc, BitVec.and_assoc, BitVec.and_comm r.mask]

/-- No word is selected by two rows (R76). -/
theorem opcodeMap_no_overlap :
    opcodeMap.Pairwise fun r q => ∀ w : Word, ¬ (w &&& r.mask = r.bits ∧ w &&& q.mask = q.bits) := by
  have hdiffer : opcodeMap.Pairwise fun r q => r.bits &&& q.mask ≠ q.bits &&& r.mask := by decide
  exact hdiffer.imp fun hne _ ⟨hr, hq⟩ => hne (bits_agree_of_selected hr hq)

/-- A word is refused under its own name only (R80). -/
theorem decodeWord_error_eq {w : Word} {e : DecodeError} (h : decodeWord w = .error e) : e = .unimplemented w := by
  unfold decodeWord at h
  split at h
  case h_1 | h_5 | h_8 | h_9 | h_14 | h_15 =>
    split at h <;> cases h
    rfl
  all_goals cases h
  rfl

/-- Settles O4: a decoded word is the encoding of an instruction, which selects its row; a selected word decodes by its
row. -/
theorem opcodeMapDecidesDecoding : Obligations.OpcodeMapDecidesDecoding := by
  refine ⟨fun w => ⟨?_, fun ⟨r, hr, h⟩ => decodes_of_row r hr w h⟩, opcodeMap_no_overlap,
    fun w e => decodeWord_error_eq⟩
  rintro ⟨i, hi⟩
  obtain ⟨r, hrow, hsel⟩ := encode_selects_row i
  rw [encode_of_decodeWord hi] at hsel
  exact ⟨r, List.mem_of_getElem? hrow, beq_iff_eq.1 hsel⟩

/-! ## Words written out -/

/-- Settles O1: each word by evaluation of the decoder. -/
theorem writtenWordsDecode : Obligations.WrittenWordsDecode :=
  ⟨rfl, rfl, rfl, rfl, rfl, rfl, rfl, rfl, rfl, rfl, rfl, rfl⟩

end Sys2Proof.Proofs
end

section
/-! SUPPORT. The tick, kind of state by kind of state: one equation for each, and that there is no other kind
(spec/40_pipeline.md R101 to R106). The two kinds of a ready tick have theirs above. -/

namespace Sys2Proof.Proofs

open Sys2Proof Sys2Proof.Machine Sys2Proof.Claims

theorem step_of_fault {s : State} (h : s.fault ≠ .none) : step s = .next s := by
  rw [step, tick, if_pos h]

theorem step_of_paused {s : State} (hfault : s.fault = .none) (hrun : s.run = .paused) : step s = pausedTick s := by
  rw [step, tick, if_neg (not_not.2 hfault), hrun]

theorem step_of_running {s : State} (hfault : s.fault = .none) (hrun : s.run = .running) :
    step s = runTick exec s := by
  rw [step, tick, if_neg (not_not.2 hfault), hrun]

/-- The timer stage does not end a wait, and neither stage before the fetch moves PC. -/
theorem timerStage_stillWaiting (s : State) : s.timerStage.stillWaiting = s.stillWaiting := rfl

theorem timerStage_released_fetchFaults (s : State) : s.timerStage.released.fetchFaults = s.fetchFaults := rfl

theorem step_of_waiting {s : State} (hfault : s.fault = .none) (hrun : s.run = .running)
    (hwait : s.stillWaiting = true) : step s = .next s.timerStage := by
  rw [step_of_running hfault hrun, runTick, if_pos ((timerStage_stillWaiting s).trans hwait)]

theorem step_of_fetchFaults {s : State} (hfault : s.fault = .none) (hrun : s.run = .running)
    (hwait : s.stillWaiting = false) (hfetch : s.fetchFaults = true) :
    step s = .next (s.timerStage.released.raiseAt .fetchOor s.pc.toNat s.pc) := by
  rw [step_of_running hfault hrun, runTick, if_neg (by simp [timerStage_stillWaiting, hwait]), fetchExecute,
    if_pos ((timerStage_released_fetchFaults s).trans hfetch)]
  rfl

theorem stillWaiting_eq_false_iff (s : State) : s.stillWaiting = false ↔ (s.waitKey = true → s.anyKey = true) := by
  simp [State.stillWaiting]

/-- The kinds of state a tick can meet. -/
theorem tick_kinds (s : State) :
    s.fault ≠ .none ∨
    (s.fault = .none ∧ s.run = .paused) ∨
    (s.fault = .none ∧ s.run = .running ∧ s.stillWaiting = true) ∨
    (s.fault = .none ∧ s.run = .running ∧ s.stillWaiting = false ∧ s.fetchFaults = true) ∨
    (∃ i, Executes s i) ∨
    (Ready s ∧ ∃ e, decodeWord s.fetchWord = .error e) := by
  by_cases hfault : s.fault = .none
  case neg => exact .inl hfault
  cases hrun : s.run with
  | paused => exact .inr (.inl ⟨hfault, rfl⟩)
  | running =>
    cases hwait : s.stillWaiting with
    | true => exact .inr (.inr (.inl ⟨hfault, rfl, rfl⟩))
    | false =>
      cases hfetch : s.fetchFaults with
      | true => exact .inr (.inr (.inr (.inl ⟨hfault, rfl, rfl, rfl⟩)))
      | false =>
        have hready : Ready s := (ready_iff s).2 ⟨hfault, hrun, (stillWaiting_eq_false_iff s).1 hwait, hfetch⟩
        cases hd : decodeWord s.fetchWord with
        | ok i => exact .inr (.inr (.inr (.inr (.inl ⟨i, executes_iff.2 ⟨hready, hd⟩⟩))))
        | error e => exact .inr (.inr (.inr (.inr (.inr ⟨hready, e, rfl⟩))))

theorem step_of_decode_error {s : State} {e : DecodeError} (hready : Ready s) (hd : decodeWord s.fetchWord = .error e) :
    step s = .next { entry s s.fetchWord with unimpl := true } :=
  step_of_unimplemented hready (by simp [hd])

theorem pausedTick_frozen {s : State} (h : s.cfg.pausedTick = .frozen) : pausedTick s = .next s := by
  rw [pausedTick, h]

theorem pausedTick_timersOnly {s : State} (h : s.cfg.pausedTick = .timersOnly) :
    pausedTick s = .next s.timerStage := by
  rw [pausedTick, h]

/-- A paused tick moves the timers at most (R103). -/
theorem pausedTick_cases (s : State) : pausedTick s = .next s ∨ pausedTick s = .next s.timerStage := by
  cases h : s.cfg.pausedTick with
  | frozen => exact .inl (pausedTick_frozen h)
  | timersOnly => exact .inr (pausedTick_timersOnly h)

/-- The dispatch starts with the wait flag clear, so an instruction that leaves it alone is not rolled back. -/
theorem rollBack_of_not_waiting {t : State} (h : t.waitKey = false) : t.rollBack = t := by
  rw [State.rollBack, h]; rfl

end Sys2Proof.Proofs
end

section
/-! PROOF. The tick of a given state (spec/40_pipeline.md R101 to R110). -/

namespace Sys2Proof.Proofs

open Sys2Proof Sys2Proof.Machine Sys2Proof.Claims

/-- Two bytes decode to what their word decodes to. -/
theorem decodeWord_of_decode {hi lo : Byte} {i : Instr} (h : decode [hi, lo] = .ok (i, [])) :
    decodeWord (wordOfBytes hi lo) = .ok i := by
  rw [decode_pair] at h
  cases hd : decodeWord (wordOfBytes hi lo) with
  | ok j => rw [hd] at h; cases h; rfl
  | error e => rw [hd] at h; cases h

/-- Settles O5: the bytes at PC are those of the fetched word, so the tick executes what they decode to. -/
theorem stepRunsDecodedInstruction : Obligations.StepRunsDecodedInstruction := by
  intro s i w hready hw hd
  obtain rfl := eq_fetchWord_of_wordAt hw
  rw [step_of_executes (executes_iff.2 ⟨hready, decodeWord_of_decode hd⟩)]
  cases exec i (entry s s.fetchWord) <;> rfl

/-- Settles O7: the fault check, and the two paused ticks. -/
theorem faultedOrPausedTickIsIdle : Obligations.FaultedOrPausedTickIsIdle := by
  refine fun s => ⟨step_of_fault, fun hfault hrun hcfg => ?_, fun hfault hrun hcfg => ?_⟩
  · rw [step_of_paused hfault hrun, pausedTick_frozen hcfg]
  · rw [step_of_paused hfault hrun, pausedTick_timersOnly hcfg, timerStage_eq]

/-- Settles O10: the fetch stage raises its fault at PC itself, after the timer and wait stages. -/
theorem fetchBeyondMemoryFaults : Obligations.FetchBeyondMemoryFaults := by
  intro s hfault hrun hkey hpc
  have hwait : s.stillWaiting = false := (stillWaiting_eq_false_iff s).2 fun h => (anyKey_iff s).2 (hkey h)
  rw [step_of_fetchFaults hfault hrun hwait (State.fetchFaults_eq_true.2 hpc), timerStage_eq]
  rfl

theorem run_succ {M : Host.Core} {s t : M.State} (h : M.step s = .next t) (n : Nat) : M.run (n + 1) s = M.run n t := by
  rw [Host.Core.run, h]

theorem core_run_succ {s t : State} (h : step s = .next t) (n : Nat) : core.run (n + 1) s = core.run n t :=
  run_succ (M := core) h n

/-- Settles O9: one running tick without Fx15 takes DT down by one (TimersCountDownOncePerTick); the rest is induction
on the number of ticks. -/
theorem delayTimerRunsOut : Obligations.DelayTimerRunsOut := by
  intro n
  induction n with
  | zero =>
    intro s t hrun _
    cases hrun
    rfl
  | succ n ih =>
    intro s t hrun hbefore
    obtain ⟨u, hu, hfault, hrunning, hnoSet⟩ := hbefore 0 (Nat.succ_pos n)
    cases hu
    obtain ⟨s', hstep, hdt, -⟩ := timersCountDownOncePerTick s hfault hrunning
    have hrest := ih s' t (core_run_succ hstep n ▸ hrun) fun k hk =>
      core_run_succ hstep k ▸ hbefore (k + 1) (Nat.succ_lt_succ hk)
    rw [hrest, hdt hnoSet]; omega

end Sys2Proof.Proofs
end

section
/-! SUPPORT. The instructions that store at I, case by case (spec/43_index_memory.md R184, R186). -/

namespace Sys2Proof.Proofs

open Sys2Proof Sys2Proof.Machine

theorem exec_ldB_fits {x : Reg} {s : State}
    (h : bcdCount s.cfg (s.V x) = 0 ∨ s.i.toNat + bcdCount s.cfg (s.V x) ≤ memSize) :
    exec (.ldB x) s =
      .next ({ s with mem := s.mem.writeBytes s.i.toNat (bcdBytes s.cfg (s.V x)) }.setI (fontAddr s.cfg (s.V x))) := by
  rw [← bcdBytes_length] at h
  show execLdB x s = _
  rw [execLdB, storeAtI_fits h]

theorem exec_ldB_raises {x : Reg} {s : State}
    (h : ¬ (bcdCount s.cfg (s.V x) = 0 ∨ s.i.toNat + bcdCount s.cfg (s.V x) ≤ memSize)) :
    exec (.ldB x) s = .next (s.raise .storeOor (max s.i.toNat memSize)) := by
  rw [← bcdBytes_length] at h
  show execLdB x s = _
  rw [execLdB, storeAtI_raises h]

theorem exec_storeRegs_fits {x : Reg} {s : State} (h : s.i.toNat + x.val < memSize) :
    exec (.storeRegs x) s = .next { s with mem := s.mem.writeBytes s.i.toNat (s.regsUpTo x) } := by
  show execStoreRegs x s = _
  rw [execStoreRegs, storeAtI_fits (.inr (by rw [State.regsUpTo_length]; omega))]; rfl

theorem exec_storeRegs_raises {x : Reg} {s : State} (h : memSize ≤ s.i.toNat + x.val) :
    exec (.storeRegs x) s = .next (s.raise .storeOor (max s.i.toNat memSize)) := by
  show execStoreRegs x s = _
  rw [execStoreRegs, storeAtI_raises (by rw [State.regsUpTo_length]; omega)]

end Sys2Proof.Proofs
end

section
/-! SUPPORT. What an instruction can do, said once: it completes by one of a few updates of the state, or raises one of
the faults of the cause table on that fault's condition (spec/60_exceptions.md R242). Each invariant of an instruction is
then a case analysis over the updates and not over the instructions. -/

namespace Sys2Proof.Proofs

open Sys2Proof Sys2Proof.Machine Sys2Proof.Claims

/-- The updates by which an instruction completes. -/
inductive Completes (s : State) : State → Prop
  | registers (v : Vector Byte 16) (d : Nat) : Completes s { s with v := v, draws := d }
  | jump (n : Nat) (h : n ≤ 0x10FE) : Completes s (s.setPc n)
  | skip (c : Bool) : Completes s (s.skipIf c)
  | index (n : Nat) : Completes s (s.setI n)
  | store (bs : List Byte) (h : bs.length = 0 ∨ s.i.toNat + bs.length ≤ memSize) :
      Completes s { s with mem := s.mem.writeBytes s.i.toNat bs }
  | storeIndex (bs : List Byte) (h : bs.length = 0 ∨ s.i.toNat + bs.length ≤ memSize) (n : Nat) :
      Completes s ({ s with mem := s.mem.writeBytes s.i.toNat bs }.setI n)
  | clear : Completes s { s with pix := Display.blank s.cfg.dispW s.cfg.dispH }
  | draw (ps qs : List (Nat × Nat)) (h : edge s.cfg ps = .ok qs) : Completes s (s.composite qs)
  | delay (b : Byte) : Completes s { s with dt := b }
  | sound (b : Byte) : Completes s { s with st := b }
  | wait : Completes s { s with waitKey := true }

/-- The pixels of the sprite that Dxyn draws. -/
def drawnPixels (x y : Reg) (n : Fin 16) (s : State) : List (Nat × Nat) :=
  spritePixels (s.V x).toNat (s.V y).toNat (s.mem.readBytes s.i.toNat n.val)

/-- The faults an instruction can raise, each with its condition and information. -/
inductive Raises (s : State) : Instr → FaultCause → Nat → Prop
  | load (x : Reg) (h : memSize ≤ s.i.toNat + x.val) : Raises s (.loadRegs x) .loadOor (max s.i.toNat memSize)
  | store (x : Reg) (h : memSize ≤ s.i.toNat + x.val) : Raises s (.storeRegs x) .storeOor (max s.i.toNat memSize)
  | bcd (x : Reg) (h : ¬ (bcdCount s.cfg (s.V x) = 0 ∨ s.i.toNat + bcdCount s.cfg (s.V x) ≤ memSize)) :
      Raises s (.ldB x) .storeOor (max s.i.toNat memSize)
  | rows (x y : Reg) (n : Fin 16) (h : ¬ (n.val = 0 ∨ s.i.toNat + n.val ≤ memSize)) :
      Raises s (.drw x y n) .loadOor (max s.i.toNat memSize)
  | outside (x y : Reg) (n : Fin 16) (info : Nat) (h : edge s.cfg (drawnPixels x y n s) = .error info) :
      Raises s (.drw x y n) .drawOor info
  | skipPressed (x : Reg) (hcfg : s.cfg.keyOor = .fault) (h : 16 ≤ (s.V x).toNat) :
      Raises s (.skp x) .keyOor (s.V x).toNat
  | skipReleased (x : Reg) (hcfg : s.cfg.keyOor = .fault) (h : 16 ≤ (s.V x).toNat) :
      Raises s (.sknp x) .keyOor (s.V x).toNat

theorem Completes.setV (s : State) (x : Reg) (b : Byte) : Completes s (s.setV x b) := .registers _ s.draws

theorem Completes.setV_setV (s : State) (x y : Reg) (b c : Byte) : Completes s ((s.setV x b).setV y c) :=
  .registers _ s.draws

/-- A sum that Bnnn forms is a PC within the bound of the invariant (R29, R133). -/
theorem jumpPlusV0_le (b : Byte) (nnn : Addr12) : b.toNat + nnn.toNat ≤ 0x10FE := by
  have := b.isLt; have := nnn.isLt; omega

/-- Every instruction in every state completes by one of the updates or raises one of the faults. -/
theorem exec_cases (i : Instr) (s : State) :
    (∃ t, Completes s t ∧ exec i s = .next t) ∨
    (∃ cause info, Raises s i cause info ∧ exec i s = .next (s.raise cause info)) := by
  cases i with
  | clrscr => exact .inl ⟨_, .clear, rfl⟩
  | jp nnn => exact .inl ⟨_, .jump nnn.toNat (by have := nnn.isLt; omega), rfl⟩
  | jpV0 nnn => exact .inl ⟨_, .jump _ (jumpPlusV0_le (s.V V0) nnn), rfl⟩
  | seImm x nn => exact .inl ⟨_, .skip _, rfl⟩
  | sneImm x nn => exact .inl ⟨_, .skip _, rfl⟩
  | seReg x y => exact .inl ⟨_, .skip _, rfl⟩
  | sneReg x y => exact .inl ⟨_, .skip _, rfl⟩
  | ldI nnn => exact .inl ⟨_, .index _, rfl⟩
  | addI x => exact .inl ⟨_, .index _, rfl⟩
  | ldF x => exact .inl ⟨_, .index _, rfl⟩
  | rnd x nn => exact .inl ⟨_, .registers _ _, rfl⟩
  | drw x y n =>
    rcases execDrw_cases x y n s with ⟨h, hexec⟩ | ⟨-, info, h, hexec⟩ | ⟨-, qs, h, hexec⟩
    · exact .inr ⟨_, _, .rows x y n h, hexec⟩
    · exact .inr ⟨_, _, .outside x y n info h, hexec⟩
    · exact .inl ⟨_, .draw _ qs h, hexec⟩
  | skp x =>
    rcases s.pressed_cases (s.V x) with ⟨b, h⟩ | ⟨h, hcfg, hx⟩
    · exact .inl ⟨_, .skip b, exec_skp_pressed h⟩
    · exact .inr ⟨_, _, .skipPressed x hcfg hx, exec_skp_keyOor h⟩
  | sknp x =>
    rcases s.pressed_cases (s.V x) with ⟨b, h⟩ | ⟨h, hcfg, hx⟩
    · exact .inl ⟨_, .skip (!b), exec_sknp_pressed h⟩
    · exact .inr ⟨_, _, .skipReleased x hcfg hx, exec_sknp_keyOor h⟩
  | ldVxK x =>
    cases h : s.firstKey with
    | some k => exact .inl ⟨_, .setV s x _, exec_ldVxK_key h⟩
    | none => exact .inl ⟨_, .wait, exec_ldVxK_arms h⟩
  | ldDtVx x => exact .inl ⟨_, .delay _, rfl⟩
  | ldStVx x => exact .inl ⟨_, .sound _, rfl⟩
  | ldB x =>
    by_cases h : bcdCount s.cfg (s.V x) = 0 ∨ s.i.toNat + bcdCount s.cfg (s.V x) ≤ memSize
    · exact .inl ⟨_, .storeIndex _ ((bcdBytes_length s.cfg (s.V x)).symm ▸ h) _, exec_ldB_fits h⟩
    · exact .inr ⟨_, _, .bcd x h, exec_ldB_raises h⟩
  | storeRegs x =>
    by_cases h : s.i.toNat + x.val < memSize
    · exact .inl ⟨_, .store _ (.inr (by rw [State.regsUpTo_length]; omega)), exec_storeRegs_fits h⟩
    · exact .inr ⟨_, _, .store x (by omega), exec_storeRegs_raises (by omega)⟩
  | loadRegs x =>
    by_cases h : s.i.toNat + x.val < memSize
    · exact .inl ⟨_, .registers _ s.draws, execLoadRegs_fits h⟩
    · exact .inr ⟨_, _, .load x (by omega), execLoadRegs_raises (by omega)⟩
  | ldImm x nn => exact .inl ⟨_, .setV s x _, rfl⟩
  | addImm x nn => exact .inl ⟨_, .setV s x _, rfl⟩
  | ldReg x y => exact .inl ⟨_, .setV s x _, rfl⟩
  | orReg x y => exact .inl ⟨_, .setV s x _, rfl⟩
  | andReg x y => exact .inl ⟨_, .setV s x _, rfl⟩
  | xorReg x y => exact .inl ⟨_, .setV s x _, rfl⟩
  | ldVxDt x => exact .inl ⟨_, .setV s x _, rfl⟩
  | addReg x y => exact .inl ⟨_, .setV_setV s x VF _ _, rfl⟩
  | subReg x y => exact .inl ⟨_, .setV_setV s x VF _ _, rfl⟩
  | subn x y => exact .inl ⟨_, .setV_setV s x VF _ _, rfl⟩
  | shr x y => exact .inl ⟨_, .setV_setV s VF x _ _, rfl⟩
  | shl x y => exact .inl ⟨_, .setV_setV s VF x _ _, rfl⟩

/-- The same, for an instruction whose answer is at hand. -/
theorem exec_next_cases {i : Instr} {s t : State} (h : exec i s = .next t) :
    Completes s t ∨ ∃ cause info, Raises s i cause info ∧ t = s.raise cause info := by
  rcases exec_cases i s with ⟨u, hu, hexec⟩ | ⟨cause, info, hr, hexec⟩
  · cases hexec.symm.trans h; exact .inl hu
  · cases hexec.symm.trans h; exact .inr ⟨cause, info, hr, rfl⟩

/-- What completing leaves alone: the latch, the host's fields, the current opcode, the report and the parameters. -/
theorem Completes.keeps {s t : State} (h : Completes s t) :
    t.fault = s.fault ∧ t.faultInfo = s.faultInfo ∧ t.key = s.key ∧ t.run = s.run ∧ t.opcode = s.opcode ∧
      t.unimpl = s.unimpl ∧ t.cfg = s.cfg := by
  cases h with
  | skip c => simp
  | _ => exact ⟨rfl, rfl, rfl, rfl, rfl, rfl, rfl⟩

/-- No instruction raises FETCH_OOR, and none raises the absence of a fault. -/
theorem Raises.cause_ne {s : State} {i : Instr} {cause : FaultCause} {info : Nat} (h : Raises s i cause info) :
    cause ≠ .none ∧ cause ≠ .fetchOor := by
  cases h <;> decide

/-- Only Fx0A leaves the wait flag set, and it leaves everything else alone. -/
theorem Completes.waits {s t : State} (h : Completes s t) (hs : s.waitKey = false) (ht : t.waitKey = true) :
    t = { s with waitKey := true } := by
  cases h with
  | wait => rfl
  | skip c => simp [hs] at ht
  | _ => exact absurd (hs.symm.trans ht) Bool.false_ne_true

/-! ## The tick that executes an instruction -/

theorem entry_pc_sub (s : State) (w : Word) : (entry s w).pc - 2 = s.pc := BitVec.add_sub_cancel s.pc 2

/-- What a tick that executes `i` leaves (R109 to R111): `i` completed and was rolled back if it waits, or it raised a
fault at its own address. -/
theorem step_executes_cases {s t : State} {i : Instr} (hi : Executes s i) (h : step s = .next t) :
    (∃ u, Completes (entry s s.fetchWord) u ∧ t = u.rollBack) ∨
    (∃ cause info, Raises (entry s s.fetchWord) i cause info ∧
      t = (entry s s.fetchWord).raiseAt cause info s.pc) := by
  rw [step_of_executes hi] at h
  obtain ⟨u, hu, rfl⟩ := rolledBack_next h
  rcases exec_next_cases hu with hc | ⟨cause, info, hr, rfl⟩
  · exact .inl ⟨u, hc, rfl⟩
  · refine .inr ⟨cause, info, hr, ?_⟩
    rw [rollBack_of_not_waiting rfl, State.raise, entry_pc_sub]

/-! ## Every tick -/

/-- What a tick can leave, kind of tick by kind of tick. -/
inductive Ticks (s : State) : State → Prop
  | faulted (hfault : s.fault ≠ .none) : Ticks s s
  | frozen (hfault : s.fault = .none) (hrun : s.run = .paused) : Ticks s s
  | timersOnly (hfault : s.fault = .none) (hrun : s.run = .paused) : Ticks s s.timerStage
  | waits (hfault : s.fault = .none) (hrun : s.run = .running) (hwait : s.stillWaiting = true) : Ticks s s.timerStage
  | fetchFaults (hfault : s.fault = .none) (hrun : s.run = .running) (hfetch : s.fetchFaults = true) :
      Ticks s (s.timerStage.released.raiseAt .fetchOor s.pc.toNat s.pc)
  | completes (i : Instr) (hi : Executes s i) (u : State) (hc : Completes (entry s s.fetchWord) u) : Ticks s u.rollBack
  | raises (i : Instr) (hi : Executes s i) (cause : FaultCause) (info : Nat)
      (hr : Raises (entry s s.fetchWord) i cause info) : Ticks s ((entry s s.fetchWord).raiseAt cause info s.pc)
  | reports (hready : Ready s) (hd : decodeWord s.fetchWord = .error (.unimplemented s.fetchWord)) :
      Ticks s { entry s s.fetchWord with unimpl := true }

/-- The inversion of the tick. -/
theorem ticks_of_step {s t : State} (h : step s = .next t) : Ticks s t := by
  rcases tick_kinds s with hf | ⟨hf, hr⟩ | ⟨hf, hr, hw⟩ | ⟨hf, hr, hw, hfetch⟩ | ⟨i, hi⟩ | ⟨hready, e, he⟩
  · cases (step_of_fault hf).symm.trans h
    exact .faulted hf
  · rw [step_of_paused hf hr] at h
    rcases pausedTick_cases s with hp | hp
    · cases hp.symm.trans h; exact .frozen hf hr
    · cases hp.symm.trans h; exact .timersOnly hf hr
  · cases (step_of_waiting hf hr hw).symm.trans h
    exact .waits hf hr hw
  · cases (step_of_fetchFaults hf hr hw hfetch).symm.trans h
    exact .fetchFaults hf hr hfetch
  · rcases step_executes_cases hi h with ⟨u, hc, rfl⟩ | ⟨cause, info, hr, rfl⟩
    · exact .completes i hi u hc
    · exact .raises i hi cause info hr
  · cases (step_of_decode_error hready he).symm.trans h
    exact .reports hready (decodeWord_error_eq he ▸ he)

end Sys2Proof.Proofs
end

section
/-! SUPPORT. The pixels a draw names and what `edge` answers, in the vocabulary of the statements
(spec/44_display.md R202 to R204). -/

namespace Sys2Proof.Proofs

open Sys2Proof Sys2Proof.Machine Sys2Proof.Claims

/-- The pixels of a draw are its set bits, each at its offset from (Vx, Vy). -/
theorem mem_drawnPixels {x y : Reg} {n : Fin 16} {s : State} {p : Nat × Nat} :
    p ∈ drawnPixels x y n s ↔
      ∃ r c, SpriteBit s n.val r c = true ∧ p = ((s.V x).toNat + c, (s.V y).toNat + r) := by
  simp only [drawnPixels, mem_spritePixels, Memory.readBytes_length, Memory.readBytes_getD, SpriteBit,
    Bool.and_eq_true, decide_eq_true_eq]
  constructor
  · rintro ⟨r, c, hr, hc, hbit, rfl⟩
    exact ⟨r, c, ⟨⟨hr, hc⟩, by simpa [hr] using hbit⟩, rfl⟩
  · rintro ⟨r, c, ⟨⟨hr, hc⟩, hbit⟩, rfl⟩
    exact ⟨r, c, hr, hc, by simpa [hr] using hbit, rfl⟩

/-- A set bit is in a row of the sprite and in one of the eight columns. -/
theorem spriteBit_bounds {s : State} {n r c : Nat} (h : SpriteBit s n r c = true) : r < n ∧ c < 8 := by
  simp only [SpriteBit, Bool.and_eq_true, decide_eq_true_eq] at h
  exact h.1

theorem onDisplay_eq_false_iff (c : Config) (p : Nat × Nat) :
    onDisplay c p = false ↔ c.dispW ≤ p.1 ∨ c.dispH ≤ p.2 := by
  simp [onDisplay, imp_iff_not_or]

/-- `edge` fails under `DRAW_EDGE = fault` only, with the first pixel outside (R204). -/
theorem edge_error_iff {c : Config} {ps : List (Nat × Nat)} {info : Nat} :
    edge c ps = .error info ↔
      c.drawEdge = .fault ∧ ∃ p, ps.find? (fun p => !onDisplay c p) = some p ∧ info = drawOorInfo p := by
  unfold edge
  cases c.drawEdge with
  | fault => cases ps.find? (fun p => !onDisplay c p) <;> simp [eq_comm]
  | clip => simp
  | wrap => simp

/-! ## Dxyn, case by case -/

theorem exec_drw_loadOor {x y : Reg} {n : Fin 16} {s : State} (h : ¬ (n.val = 0 ∨ s.i.toNat + n.val ≤ memSize)) :
    exec (.drw x y n) s = .next (s.raise .loadOor (max s.i.toNat memSize)) := by
  show execDrw x y n s = _
  rw [execDrw, outOfRange_some.2 ⟨h, rfl⟩]

theorem exec_drw_drawOor {x y : Reg} {n : Fin 16} {s : State} {info : Nat}
    (hfits : n.val = 0 ∨ s.i.toNat + n.val ≤ memSize) (h : edge s.cfg (drawnPixels x y n s) = .error info) :
    exec (.drw x y n) s = .next (s.raise .drawOor info) := by
  rw [drawnPixels] at h
  show execDrw x y n s = _
  simp only [execDrw, outOfRange_none.2 hfits, h]

theorem exec_drw_draws {x y : Reg} {n : Fin 16} {s : State} {qs : List (Nat × Nat)}
    (hfits : n.val = 0 ∨ s.i.toNat + n.val ≤ memSize) (h : edge s.cfg (drawnPixels x y n s) = .ok qs) :
    exec (.drw x y n) s = .next (s.composite qs) := by
  rw [drawnPixels] at h
  show execDrw x y n s = _
  simp only [execDrw, outOfRange_none.2 hfits, h]

/-- DRAW_OOR is about a set bit of the sprite that lies outside. -/
theorem exists_outside_of_edge_error {x y : Reg} {n : Fin 16} {s : State} {info : Nat}
    (h : edge s.cfg (drawnPixels x y n s) = .error info) :
    s.cfg.drawEdge = .fault ∧ ∃ r c, Outside s (s.V x).toNat (s.V y).toNat n.val r c ∧
      info = (s.V x).toNat + c + 512 * ((s.V y).toNat + r) := by
  obtain ⟨hedge, p, hfind, rfl⟩ := edge_error_iff.1 h
  obtain ⟨r, c, hbit, rfl⟩ := mem_drawnPixels.1 (List.mem_of_find?_eq_some hfind)
  have hout : onDisplay s.cfg ((s.V x).toNat + c, (s.V y).toNat + r) = false := by
    simpa using List.find?_some hfind
  exact ⟨hedge, r, c, ⟨hbit, (onDisplay_eq_false_iff _ _).1 hout⟩, rfl⟩

end Sys2Proof.Proofs
end

section
/-! PROOF. The invariant of the core, kept by every tick: each update an instruction completes by keeps it, and each
fault it raises records what its cause says (spec/10_state.md R20, R29; 60_exceptions.md R242). -/

namespace Sys2Proof.Proofs

open Sys2Proof Sys2Proof.Machine Sys2Proof.Claims

/-! ## The updates -/

theorem inv_setPc {s : State} (h : s.Inv) {n : Nat} (hn : n ≤ 0x10FE) : (s.setPc n).Inv :=
  { h with pcOk := by rw [State.setPc_pc, BitVec.toNat_ofNat]; omega }

theorem inv_setI {s : State} (h : s.Inv) (n : Nat) : (s.setI n).Inv :=
  { h with iOk := State.setI_masked s n }

theorem inv_mem {s : State} (h : s.Inv) {m : Memory} (hm : m.wf = true) : { s with mem := m }.Inv :=
  { h with memOk := hm }

/-- A store that fits keeps memory canonical. -/
theorem writeBytes_wf_of_fits {s : State} (h : s.Inv) {bs : List Byte}
    (hfits : bs.length = 0 ∨ s.i.toNat + bs.length ≤ memSize) : (s.mem.writeBytes s.i.toNat bs).wf = true :=
  Memory.writeBytes_wf bs h.memOk (hfits.imp_left List.length_eq_zero_iff.1)

/-- An instruction that completes keeps the invariant, when it was fetched from below MEM_SIZE. -/
theorem inv_of_completes {s t : State} (h : s.Inv) (hpc : s.pc.toNat ≤ 0x1000) (hc : Completes s t) : t.Inv := by
  cases hc with
  | registers v d => exact { h with }
  | jump n hn => exact inv_setPc h hn
  | skip c =>
    cases c with
    | false => exact h
    | true => exact inv_setPc h (by omega)
  | index n => exact inv_setI h n
  | store bs hfits => exact inv_mem h (writeBytes_wf_of_fits h hfits)
  | storeIndex bs hfits n => exact inv_setI (inv_mem h (writeBytes_wf_of_fits h hfits)) n
  | clear => exact { h with pixOk := Display.blank_shaped _ _ }
  | draw ps qs hq => exact { h with pixOk := Display.toggleAll_shaped qs h.pixOk }
  | delay b => exact { h with }
  | sound b => exact { h with }
  | wait => exact { h with }

/-! ## The faults -/

/-- A fault whose information fits its cause. -/
theorem inv_raiseAt {s : State} (h : s.Inv) {cause : FaultCause} {info : Nat} {pc : Word} (hpc : pc.toNat ≤ 0x10FE)
    (hinfo : (s.raiseAt cause info pc).faultInfoOk) : (s.raiseAt cause info pc).Inv :=
  { h with pcOk := hpc, faultOk := hinfo }

/-- The information of DRAW_OOR gives back the coordinates: no column of a sprite reaches 512 (R242). -/
theorem drawOorInfo_outside {s : State} {x y : Reg} {n : Fin 16} {info : Nat}
    (h : edge s.cfg (drawnPixels x y n s) = .error info) :
    s.cfg.dispW ≤ info % 512 ∨ s.cfg.dispH ≤ info / 512 := by
  obtain ⟨-, r, c, ⟨hbit, hout⟩, rfl⟩ := exists_outside_of_edge_error h
  obtain ⟨-, hc⟩ := spriteBit_bounds hbit
  have := (s.V x).isLt
  omega

/-- Every fault an instruction raises records what its cause says (R242). -/
theorem faultInfoOk_of_raises {s : State} {i : Instr} {cause : FaultCause} {info : Nat}
    (h : Raises s i cause info) : (s.raise cause info).faultInfoOk := by
  cases h with
  | load x h => exact Nat.le_max_right _ _
  | store x h => exact Nat.le_max_right _ _
  | bcd x h => exact Nat.le_max_right _ _
  | rows x y n h => exact Nat.le_max_right _ _
  | outside x y n info h => exact drawOorInfo_outside h
  | skipPressed x hcfg h => exact ⟨h, (s.V x).isLt⟩
  | skipReleased x hcfg h => exact ⟨h, (s.V x).isLt⟩

/-! ## The tick -/

theorem inv_timerStage {s : State} (h : s.Inv) : s.timerStage.Inv := { h with }

/-- PC plus 2 after a fetch: not reduced, since a whole word lies below MEM_SIZE. -/
theorem entry_pc_le {s : State} (hready : Ready s) (w : Word) : (entry s w).pc.toNat ≤ 0x1000 := by
  obtain ⟨-, -, -, hpc⟩ := hready
  show (s.pc + 2).toNat ≤ _
  rw [BitVec.toNat_add]; simp; omega

/-- The state a tick dispatches in, with the word reported if no row matches it. -/
theorem inv_entry {s : State} (h : s.Inv) (hready : Ready s) {w : Word} {b : Bool}
    (hb : b = true → decodeWord w = .error (.unimplemented w)) : { entry s w with unimpl := b }.Inv :=
  { h with pcOk := (entry_pc_le hready w).trans (by decide), unimplOk := hb }

/-- The roll-back puts PC at the waiting instruction. -/
theorem inv_rollBack {s u : State} (h : s.Inv) {w : Word} (hu : u.Inv) (hc : Completes (entry s w) u) :
    u.rollBack.Inv := by
  cases hwait : u.waitKey with
  | false => rwa [rollBack_of_not_waiting hwait]
  | true =>
    obtain rfl := hc.waits rfl hwait
    show ({ entry s w with waitKey := true, pc := (entry s w).pc - 2 } : State).Inv
    rw [entry_pc_sub]
    exact { hu with pcOk := h.pcOk }

/-- Settles O46: kind of tick by kind of tick; an executed instruction completes or raises a fault at its own
address. -/
theorem stepKeepsInvariant : Obligations.StepKeepsInvariant := by
  intro s t h hstep
  cases ticks_of_step hstep with
  | faulted | frozen => exact h
  | timersOnly | waits => exact inv_timerStage h
  | fetchFaults hfault hrun hfetch =>
    exact inv_raiseAt (s := s.timerStage.released) { h with } h.pcOk (State.fetchFaults_eq_true.1 hfetch)
  | completes i hi u hc =>
    obtain ⟨hready, -⟩ := executes_iff.1 hi
    have hentry : (entry s s.fetchWord).Inv := inv_entry h hready (by simp)
    exact inv_rollBack h (inv_of_completes hentry (entry_pc_le hready _) hc) hc
  | raises i hi cause info hr =>
    obtain ⟨hready, -⟩ := executes_iff.1 hi
    exact inv_raiseAt (inv_entry h hready (by simp)) h.pcOk (faultInfoOk_of_raises hr)
  | reports hready hd => exact inv_entry h hready fun _ => hd

end Sys2Proof.Proofs
end

section
/-! PROOF. What an instruction and a tick leave alone, and which of them latch a fault (spec/10_state.md R34, R37, R40;
60_exceptions.md R241 to R244). -/

namespace Sys2Proof.Proofs

open Sys2Proof Sys2Proof.Machine Sys2Proof.Claims

/-- Every instruction answers a next state (R109). -/
theorem exec_answers (i : Instr) (s : State) : ∃ t, exec i s = .next t := by
  rcases exec_cases i s with ⟨t, -, h⟩ | ⟨cause, info, -, h⟩
  · exact ⟨t, h⟩
  · exact ⟨_, h⟩

/-- Every tick answers a next state (R101). -/
theorem step_answers (s : State) : ∃ t, step s = .next t := by
  rcases tick_kinds s with hf | ⟨hf, hr⟩ | ⟨hf, hr, hw⟩ | ⟨hf, hr, hw, hfetch⟩ | ⟨i, hi⟩ | ⟨hready, e, he⟩
  · exact ⟨_, step_of_fault hf⟩
  · rw [step_of_paused hf hr]
    rcases pausedTick_cases s with h | h <;> exact ⟨_, h⟩
  · exact ⟨_, step_of_waiting hf hr hw⟩
  · exact ⟨_, step_of_fetchFaults hf hr hw hfetch⟩
  · obtain ⟨t, ht⟩ := exec_answers i (entry s s.fetchWord)
    exact ⟨t.rollBack, by rw [step_of_executes hi, ht]; rfl⟩
  · exact ⟨_, step_of_decode_error hready he⟩

/-- Settles O45: the tick by its kind, the instruction by its updates and faults. -/
theorem everyTickAnswersNext : Obligations.EveryTickAnswersNext := ⟨step_answers, exec_answers⟩

/-- Settles O50: an instruction by its updates and faults, the tick by its kind. -/
theorem keysRunStateAndParametersAreTheHosts : Obligations.KeysRunStateAndParametersAreTheHosts := by
  refine ⟨fun i s t h => ?_, fun s t h => ?_⟩
  · rcases exec_next_cases h with hc | ⟨cause, info, -, rfl⟩
    · obtain ⟨-, -, hkey, hrun, hopcode, hunimpl, hcfg⟩ := hc.keeps
      exact ⟨hkey, hrun, hopcode, hunimpl, hcfg⟩
    · simp
  · cases ticks_of_step h with
    | completes i hi u hc =>
      obtain ⟨-, -, hkey, hrun, -, -, hcfg⟩ := hc.keeps
      simp only [State.rollBack_key, State.rollBack_run, State.rollBack_cfg]
      exact ⟨hkey, hrun, hcfg⟩
    | _ => exact ⟨rfl, rfl, rfl⟩

/-! ## Faults -/

/-- A tick that executes an instruction and latches a fault leaves `entry` but for the latch and PC, which stands at
the instruction. -/
theorem raiseAt_entry (s : State) (cause : FaultCause) (info : Nat) :
    (entry s s.fetchWord).raiseAt cause info s.pc =
      { s with dt := down s.dt, st := down s.st, waitKey := false, fault := cause, faultInfo := info,
               opcode := s.fetchWord, unimpl := false } := rfl

/-- Settles O42: the two kinds of tick that latch a fault; no other kind sets the latch. -/
theorem faultsArePrecise : Obligations.FaultsArePrecise := by
  intro s t hfault hstep hlatched
  cases ticks_of_step hstep with
  | faulted | frozen | timersOnly | waits | reports => exact absurd hfault hlatched
  | fetchFaults _ hrun hfetch =>
    refine ⟨hrun, ?_, fun _ => ⟨State.fetchFaults_eq_true.1 hfetch, rfl, rfl, rfl⟩, fun h => absurd rfl h⟩
    rw [timerStage_eq]; rfl
  | completes i hi u hc =>
    obtain ⟨hkept, -⟩ := hc.keeps
    exact absurd ((State.rollBack_fault u).trans (hkept.trans hfault)) hlatched
  | raises i hi cause info hr =>
    obtain ⟨⟨-, hrun, -, hpc⟩, -⟩ := hi
    obtain ⟨-, hcause⟩ := hr.cause_ne
    exact ⟨hrun, raiseAt_entry s cause info, fun h => absurd h hcause, fun _ => ⟨hpc, wordAt_fetchWord s, rfl⟩⟩

/-- `digits(v)` in the statements and in the model (R185). -/
theorem bcdCount_eq_digits (c : Config) (v : Byte) : bcdCount c v = digits c v.toNat := by
  unfold bcdCount digits
  cases c.bcdZero <;> simp only [reduceCtorEq, if_true, if_false] <;> split_ifs <;> omega

/-- Settles O43: the conditions under which an instruction raises, cause by cause. -/
theorem onlyNamedInstructionsFault : Obligations.OnlyNamedInstructionsFault := by
  intro i s t hfault hexec hlatched
  rcases exec_next_cases hexec with hc | ⟨cause, info, hr, rfl⟩
  · obtain ⟨hkept, -⟩ := hc.keeps
    exact absurd (hkept.trans hfault) hlatched
  · cases hr with
    | load x h => exact .inl ⟨x, rfl, rfl, h⟩
    | rows x y n h =>
      obtain ⟨hn, hfits⟩ := not_or.1 h
      exact .inr (.inl ⟨x, y, n, rfl, rfl, hn, Nat.lt_of_not_le hfits⟩)
    | store x h => exact .inr (.inr (.inl ⟨x, rfl, rfl, h⟩))
    | bcd x h =>
      rw [bcdCount_eq_digits] at h
      obtain ⟨hk, hfits⟩ := not_or.1 h
      exact .inr (.inr (.inr (.inl ⟨x, rfl, rfl, hk, Nat.lt_of_not_le hfits⟩)))
    | outside x y n info h =>
      obtain ⟨hedge, r, c, hout, -⟩ := exists_outside_of_edge_error h
      exact .inr (.inr (.inr (.inr (.inl ⟨x, y, n, rfl, rfl, hedge, r, c, hout⟩))))
    | skipPressed x hcfg h => exact .inr (.inr (.inr (.inr (.inr ⟨x, .inl rfl, rfl, hcfg, h⟩))))
    | skipReleased x hcfg h => exact .inr (.inr (.inr (.inr (.inr ⟨x, .inr rfl, rfl, hcfg, h⟩))))

end Sys2Proof.Proofs
end

section
/-! PROOF. Noninterference: the sound timer, the current opcode and the report reach nothing but themselves
(spec/10_state.md R31, R36, R43). -/

namespace Sys2Proof.Proofs

open Sys2Proof Sys2Proof.Machine Sys2Proof.Claims

/-- `s` with other values in the three fields that no program can observe. -/
def disguised (s : State) (b : Byte) (o : Word) (u : Bool) : State := { s with st := b, opcode := o, unimpl := u }

theorem skipIf_disguised (s : State) (b : Byte) (o : Word) (u c : Bool) :
    (disguised s b o u).skipIf c = disguised (s.skipIf c) b o u := by
  cases c <;> rfl

theorem rollBack_disguised (s : State) (b : Byte) (o : Word) (u : Bool) :
    (disguised s b o u).rollBack = disguised s.rollBack b o u := by
  cases h : s.waitKey with
  | false => rw [rollBack_of_not_waiting h, rollBack_of_not_waiting (show (disguised s b o u).waitKey = false from h)]
  | true => simp [State.rollBack, disguised, h]

/-- An instruction does the same in a disguised state: every condition it reads is on other fields, and Fx18 alone
writes one of the three. -/
theorem exec_disguised (i : Instr) (s : State) (b : Byte) (o : Word) (u : Bool) :
    ∃ t b', exec i s = .next t ∧ exec i (disguised s b o u) = .next (disguised t b' o u) := by
  cases i with
  | seImm | sneImm | seReg | sneReg => exact ⟨_, b, rfl, congrArg _ (skipIf_disguised s b o u _)⟩
  | drw x y n =>
    by_cases hfits : n.val = 0 ∨ s.i.toNat + n.val ≤ memSize
    · cases h : edge s.cfg (drawnPixels x y n s) with
      | error info =>
        exact ⟨_, b, exec_drw_drawOor hfits h, exec_drw_drawOor (s := disguised s b o u) hfits h⟩
      | ok qs => exact ⟨_, b, exec_drw_draws hfits h, exec_drw_draws (s := disguised s b o u) hfits h⟩
    · exact ⟨_, b, exec_drw_loadOor hfits, exec_drw_loadOor (s := disguised s b o u) hfits⟩
  | skp x =>
    cases h : s.pressed (s.V x) with
    | some c =>
      exact ⟨_, b, exec_skp_pressed h,
        (exec_skp_pressed (s := disguised s b o u) h).trans (congrArg _ (skipIf_disguised s b o u c))⟩
    | none => exact ⟨_, b, exec_skp_keyOor h, exec_skp_keyOor (s := disguised s b o u) h⟩
  | sknp x =>
    cases h : s.pressed (s.V x) with
    | some c =>
      exact ⟨_, b, exec_sknp_pressed h,
        (exec_sknp_pressed (s := disguised s b o u) h).trans (congrArg _ (skipIf_disguised s b o u !c))⟩
    | none => exact ⟨_, b, exec_sknp_keyOor h, exec_sknp_keyOor (s := disguised s b o u) h⟩
  | ldVxK x =>
    cases h : s.firstKey with
    | some k => exact ⟨_, b, exec_ldVxK_key h, exec_ldVxK_key (s := disguised s b o u) h⟩
    | none => exact ⟨_, b, exec_ldVxK_arms h, exec_ldVxK_arms (s := disguised s b o u) h⟩
  | ldB x =>
    by_cases h : bcdCount s.cfg (s.V x) = 0 ∨ s.i.toNat + bcdCount s.cfg (s.V x) ≤ memSize
    · exact ⟨_, b, exec_ldB_fits h, exec_ldB_fits (s := disguised s b o u) h⟩
    · exact ⟨_, b, exec_ldB_raises h, exec_ldB_raises (s := disguised s b o u) h⟩
  | storeRegs x =>
    by_cases h : s.i.toNat + x.val < memSize
    · exact ⟨_, b, exec_storeRegs_fits h, exec_storeRegs_fits (s := disguised s b o u) h⟩
    · have h' := Nat.le_of_not_lt h
      exact ⟨_, b, exec_storeRegs_raises h', exec_storeRegs_raises (s := disguised s b o u) h'⟩
  | loadRegs x =>
    by_cases h : s.i.toNat + x.val < memSize
    · exact ⟨_, b, execLoadRegs_fits h, execLoadRegs_fits (s := disguised s b o u) h⟩
    · have h' := Nat.le_of_not_lt h
      exact ⟨_, b, execLoadRegs_raises h', execLoadRegs_raises (s := disguised s b o u) h'⟩
  | ldStVx x => exact ⟨_, s.V x, rfl, rfl⟩
  | _ => exact ⟨_, b, rfl, rfl⟩

/-- A paused tick in a disguised state: the disguise of the timer stays or counts too. -/
theorem pausedTick_disguised (s : State) (b : Byte) (o : Word) (u : Bool) :
    ∃ t b', pausedTick s = .next t ∧ pausedTick (disguised s b o u) = .next (disguised t b' o u) := by
  cases h : s.cfg.pausedTick with
  | frozen => exact ⟨_, b, pausedTick_frozen h, pausedTick_frozen (s := disguised s b o u) h⟩
  | timersOnly =>
    exact ⟨_, timerDown b, pausedTick_timersOnly h, pausedTick_timersOnly (s := disguised s b o u) h⟩

/-- A tick in a disguised state is of the same kind and leaves a disguised state. -/
theorem step_disguised (s : State) (b : Byte) (o : Word) (u : Bool) :
    ∃ t b' o' u', step s = .next t ∧ step (disguised s b o u) = .next (disguised t b' o' u') := by
  rcases tick_kinds s with hf | ⟨hf, hr⟩ | ⟨hf, hr, hw⟩ | ⟨hf, hr, hw, hfetch⟩ | ⟨i, hi⟩ | ⟨hready, e, he⟩
  · exact ⟨s, b, o, u, step_of_fault hf, step_of_fault (s := disguised s b o u) hf⟩
  · obtain ⟨t, b', ht, ht'⟩ := pausedTick_disguised s b o u
    exact ⟨t, b', o, u, (step_of_paused hf hr).trans ht, (step_of_paused (s := disguised s b o u) hf hr).trans ht'⟩
  · exact ⟨_, timerDown b, o, u, step_of_waiting hf hr hw, step_of_waiting (s := disguised s b o u) hf hr hw⟩
  · exact ⟨_, timerDown b, o, u, step_of_fetchFaults hf hr hw hfetch,
      step_of_fetchFaults (s := disguised s b o u) hf hr hw hfetch⟩
  · obtain ⟨t, b', ht, ht'⟩ := exec_disguised i (entry s s.fetchWord) (down b) s.fetchWord false
    refine ⟨t.rollBack, b', s.fetchWord, false, ?_, ?_⟩
    · rw [step_of_executes hi, ht]; rfl
    · rw [← rollBack_disguised]
      exact (step_of_executes (s := disguised s b o u) hi).trans (congrArg rolledBack ht')
  · exact ⟨_, down b, s.fetchWord, true, step_of_decode_error hready he,
      step_of_decode_error (s := disguised s b o u) hready he⟩

/-- Settles O51: the two steps end in a state and a disguise of it. -/
theorem soundTimerAndReportsAreUnobservable : Obligations.SoundTimerAndReportsAreUnobservable := by
  intro s t b o u hstep
  obtain ⟨t', b', o', u', ht, ht'⟩ := step_disguised s b o u
  cases ht.symm.trans hstep
  exact ⟨_, ht', rfl⟩

end Sys2Proof.Proofs
end

section
/-! SUPPORT. What the host can do, said once, and induction along a sequence of events (spec/60_exceptions.md R252,
R257; 70_reset_and_hazards.md R274 to R276). -/

namespace Sys2Proof.Proofs

open Sys2Proof Sys2Proof.Machine

/-- The updates of the host operations. -/
inductive HostUpdates (s : State) : State → Prop
  | start : HostUpdates s { s.setPc s.cfg.loadAddr with run := .running }
  | control (r : RunState) : HostUpdates s { s with run := r }
  | load (bytes : List Byte) (h : s.cfg.loadAddr + bytes.length ≤ memSize) :
      HostUpdates s { s.setPc s.cfg.loadAddr with mem := s.mem.writeBytes s.cfg.loadAddr bytes }
  | key (k : Vector Bool 16) : HostUpdates s { s with key := k }

theorem hostOp_load_refused {bytes : List Byte} {s : State} (h : memSize < s.cfg.loadAddr + bytes.length) :
    hostOp (.load bytes) s = .refused .loadTooLong := by
  show hostLoad bytes s = _
  rw [hostLoad, if_neg (Nat.not_le_of_lt h)]

theorem hostKey_inRange {k : Nat} (h : k < nkey) (b : Bool) (s : State) :
    hostKey k b s = .next { s with key := s.key.setIfInBounds k b } := by
  rw [hostKey, if_pos h]

theorem hostKey_refused {k : Nat} (h : nkey ≤ k) (b : Bool) (s : State) :
    hostKey k b s = .refused .keyIndexOutOfRange := by
  rw [hostKey, if_neg (Nat.not_lt_of_le h)]

theorem hostUpdates_of_hostKey {k : Nat} {b : Bool} {s t : State} (h : hostKey k b s = .next t) : HostUpdates s t := by
  by_cases hk : k < nkey
  · cases (hostKey_inRange hk b s).symm.trans h; exact .key _
  · cases (hostKey_refused (Nat.le_of_not_lt hk) b s).symm.trans h

/-- The inversion of a host operation. -/
theorem hostUpdates_of_hostOp {o : HostOp} {s t : State} (h : hostOp o s = .next t) : HostUpdates s t := by
  cases o with
  | start => cases h; exact .start
  | stop => cases h; exact .control _
  | pause => cases h; exact .control _
  | resume => cases h; exact .control _
  | load bytes =>
    by_cases hfits : s.cfg.loadAddr + bytes.length ≤ memSize
    · cases (hostOp_load_fits hfits).symm.trans h; exact .load bytes hfits
    · cases (hostOp_load_refused (Nat.lt_of_not_le hfits)).symm.trans h
  | keyPress k => exact hostUpdates_of_hostKey h
  | keyRelease k => exact hostUpdates_of_hostKey h

theorem runEvents_cons_next {e : Event} {es : List Event} {s t : State} (h : react e s = .next t) :
    runEvents (e :: es) s = runEvents es t := by
  rw [runEvents, h]

theorem react_of_runEvents_cons {e : Event} {es : List Event} {s t : State} (h : runEvents (e :: es) s = .next t) :
    ∃ u, react e s = .next u ∧ runEvents es u = .next t := by
  cases hu : react e s with
  | next u => exact ⟨u, rfl, (runEvents_cons_next hu).symm.trans h⟩
  | fault r => cases r
  | refused r => rw [runEvents, hu] at h; cases h

/-- What every event of a sequence keeps, the whole sequence keeps. -/
theorem runEvents_keeps {P : State → Prop} {es : List Event}
    (hreact : ∀ e ∈ es, ∀ s t, P s → react e s = .next t → P t) {s t : State} (hs : P s)
    (h : runEvents es s = .next t) : P t := by
  induction es generalizing s with
  | nil => cases h; exact hs
  | cons e es ih =>
    obtain ⟨u, hu, hrest⟩ := react_of_runEvents_cons h
    exact ih (fun f hf => hreact f (List.mem_cons_of_mem e hf)) (hreact e List.mem_cons_self s u hs hu) hrest

end Sys2Proof.Proofs
end

section
/-! PROOF. The latch and the invariant under any events, and the values at power-on (spec/10_state.md R42;
60_exceptions.md R244; 70_reset_and_hazards.md R270). -/

namespace Sys2Proof.Proofs

open Sys2Proof Sys2Proof.Machine Sys2Proof.Claims

/-! ## The latch -/

/-- What no event changes once the latch is set: the latch, and what only instructions and the timer stage write. -/
def SameUnderFault (s t : State) : Prop :=
  t.fault = s.fault ∧ t.faultInfo = s.faultInfo ∧ t.v = s.v ∧ t.i = s.i ∧ t.dt = s.dt ∧ t.st = s.st ∧
    t.pix = s.pix ∧ t.opcode = s.opcode ∧ t.unimpl = s.unimpl ∧ t.waitKey = s.waitKey

theorem sameUnderFault_of_hostUpdates {s t : State} (h : HostUpdates s t) : SameUnderFault s t := by
  cases h <;> exact ⟨rfl, rfl, rfl, rfl, rfl, rfl, rfl, rfl, rfl, rfl⟩

/-- A tick under the latch is idle, and the host writes none of these fields. -/
theorem sameUnderFault_of_react {e : Event} {s t : State} (hfault : s.fault ≠ .none) (h : react e s = .next t) :
    SameUnderFault s t := by
  cases e with
  | tick =>
    cases (step_of_fault hfault).symm.trans h
    exact ⟨rfl, rfl, rfl, rfl, rfl, rfl, rfl, rfl, rfl, rfl⟩
  | host o => exact sameUnderFault_of_hostUpdates (hostUpdates_of_hostOp h)

/-- Settles O44: along the events each state has the latch of the first, so each event is one under the latch. -/
theorem faultLatchIsSticky : Obligations.FaultLatchIsSticky := by
  intro events s t hfault hrun
  refine runEvents_keeps (P := SameUnderFault s) (fun e _ u w hu hw => ?_)
    ⟨rfl, rfl, rfl, rfl, rfl, rfl, rfl, rfl, rfl, rfl⟩ hrun
  have hfaultU : u.fault ≠ .none := fun h => hfault (hu.1.symm.trans h)
  have hw := sameUnderFault_of_react hfaultU hw
  simp only [SameUnderFault] at hu hw ⊢
  simp only [hw, hu, and_self]

/-! ## The invariant -/

theorem loadAddr_lt {c : Config} (h : c.wellFormed = true) : c.loadAddr < memSize := by
  simp only [Config.wellFormed, Config.loadAddrOk, Bool.and_eq_true, decide_eq_true_eq] at h
  exact h.1.1.1

theorem fontImage_fits {c : Config} (h : c.wellFormed = true) :
    c.fontImage = [] ∨ c.fontBase + c.fontImage.length ≤ memSize := by
  simp only [Config.wellFormed, Config.fontOk, Bool.and_eq_true, Bool.or_eq_true, decide_eq_true_eq,
    List.isEmpty_iff] at h
  exact h.1.1.2

/-- LOAD_ADDR is a PC within the bound. -/
theorem inv_setPc_loadAddr {s : State} (h : s.Inv) : (s.setPc s.cfg.loadAddr).Inv :=
  inv_setPc h ((loadAddr_lt h.cfgOk).le.trans (by decide))

/-- Settles O48: each update of a host operation keeps the invariant. -/
theorem hostOperationsKeepInvariant : Obligations.HostOperationsKeepInvariant := by
  intro o s t h hop
  cases hostUpdates_of_hostOp hop with
  | start => exact { inv_setPc_loadAddr h with }
  | control r => exact { h with }
  | load bytes hfits => exact inv_mem (inv_setPc_loadAddr h) (Memory.writeBytes_wf bytes h.memOk (.inr hfits))
  | key k => exact { h with }

theorem powerOn_inv {c : Config} (h : c.wellFormed = true) : (powerOn c).Inv where
  cfgOk := h
  memOk := Memory.writeBytes_wf _ Memory.empty_wf (fontImage_fits h)
  pixOk := Display.blank_shaped _ _
  pcOk := Nat.zero_le _
  iOk := BitVec.zero_and
  faultOk := rfl
  unimplOk := fun hreport => by cases hreport

theorem powerOn_specDefault : powerOn Config.specDefault = State.reset := rfl

/-- Settles O47: field by field; State.reset is power-on with the default parameters, which are legal. -/
theorem powerOnMeetsInvariant : Obligations.PowerOnMeetsInvariant :=
  ⟨fun _ => powerOn_inv, powerOn_specDefault ▸ powerOn_inv (by decide)⟩

/-- Settles O49: power-on meets the invariant (O47), a tick keeps it (O46) and so does a host operation (O48). -/
theorem reachableStatesMeetInvariant : Obligations.ReachableStatesMeetInvariant := by
  intro c events t hc hrun
  refine runEvents_keeps (P := State.Inv) (fun e _ s u hs hu => ?_) (powerOn_inv hc) hrun
  cases e with
  | tick => exact stepKeepsInvariant s u hs hu
  | host o => exact hostOperationsKeepInvariant o s u hs hu

/-! ## Power-on -/

theorem powerOn_V (c : Config) (r : Reg) : (powerOn c).V r = 0 := Vector.getElem_replicate r.isLt

theorem powerOn_key (c : Config) (k : Fin 16) : (powerOn c).key[k.val] = false := Vector.getElem_replicate k.isLt

/-- FONT_IMAGE at FONT_BASE (20_memory.md R61). -/
theorem powerOn_font {c : Config} (h : c.wellFormed = true) {j : Nat} (hj : j < c.fontImage.length) :
    (powerOn c).mem.get (c.fontBase + j) = c.fontImage.getD j 0 :=
  Memory.get_writeBytes _ Memory.empty_wf (fontImage_fits h) hj 0

/-- Every other byte is 0. -/
theorem powerOn_mem_outside {c : Config} {a : Nat} (h : a < c.fontBase ∨ c.fontBase + c.fontImage.length ≤ a) :
    (powerOn c).mem.get a = 0 :=
  Memory.get_writeBytes_ne _ Memory.empty h

/-- Settles O52: the fields power-on sets, and those it takes over from State.reset. -/
theorem powerOnValues : Obligations.PowerOnValues := fun c hc =>
  ⟨powerOn_V c, rfl, rfl, rfl, rfl, Display.cell_blank _ _, powerOn_key c, rfl, rfl, rfl, rfl, rfl, rfl, rfl,
    fun _ => powerOn_font hc, fun _ => powerOn_mem_outside, powerOn_specDefault⟩

end Sys2Proof.Proofs
end

section
/-! PROOF. Load, start and key events (spec/40_pipeline.md R114; 60_exceptions.md R252; 70_reset_and_hazards.md R275,
R276). -/

namespace Sys2Proof.Proofs

open Sys2Proof Sys2Proof.Machine Sys2Proof.Claims

/-- Settles O55: a load that fits writes its own bytes and PC, one that does not is refused, and start writes PC and
the run state. -/
theorem startAndLoadKeepTheRest : Obligations.StartAndLoadKeepTheRest := by
  refine fun bytes s => ⟨fun hfits => ⟨_, hostOp_load_fits hfits, ?_, rfl⟩, hostOp_load_refused, fun haddr => ?_⟩
  · exact fun a => Memory.get_writeBytes_ne bytes s.mem
  · exact ⟨_, rfl, setPc_toNat_of_lt_memSize s haddr, rfl, rfl⟩

/-- One entry of the key matrix written, every entry read back. -/
theorem setKey_getElem (m : Vector Bool 16) (k j : Fin 16) (b : Bool) :
    (m.setIfInBounds k.val b)[j.val] = if j = k then b else m[j.val] := by
  simp [Vector.getElem_setIfInBounds, Fin.ext_iff, eq_comm]

theorem hostKey_sets_entry (k : Fin 16) (b : Bool) (s : State) :
    ∃ t, hostKey k.val b s = .next t ∧ t = { s with key := t.key } ∧
      ∀ j : Fin 16, t.key[j.val] = if j = k then b else s.key[j.val] :=
  ⟨_, hostKey_fin k b s, rfl, fun j => setKey_getElem s.key k j b⟩

/-- Settles O56: both events are one write of the key matrix, refused from index 16 on. -/
theorem keyEventsSetOneEntry : Obligations.KeyEventsSetOneEntry := fun s =>
  ⟨fun k => ⟨hostKey_sets_entry k true s, hostKey_sets_entry k false s⟩,
    fun _ hk => ⟨hostKey_refused hk true s, hostKey_refused hk false s⟩⟩

end Sys2Proof.Proofs
end

section
/-! PROOF. Ticks in which the timers alone move: the paused core and the waiting one (spec/40_pipeline.md R103, R115,
R116; 45_timers_input.md R225). -/

namespace Sys2Proof.Proofs

open Sys2Proof Sys2Proof.Machine Sys2Proof.Claims

/-! ## Timers over many ticks -/

/-- `s` after `n` timer stages (R104): each timer down by `n`, stopping at 0. -/
def timersDown (n : Nat) (s : State) : State :=
  { s with dt := BitVec.ofNat 8 (s.dt.toNat - n), st := BitVec.ofNat 8 (s.st.toNat - n) }

theorem timersDown_zero (s : State) : timersDown 0 s = s := by simp [timersDown]

theorem down_ofNat_sub (b : Byte) (n : Nat) :
    down (BitVec.ofNat 8 (b.toNat - n)) = BitVec.ofNat 8 (b.toNat - (n + 1)) := by
  have := b.isLt
  rw [down, BitVec.toNat_ofNat, Nat.mod_eq_of_lt (by omega), Nat.sub_sub]

theorem timerStage_timersDown (n : Nat) (s : State) : (timersDown n s).timerStage = timersDown (n + 1) s := by
  rw [timerStage_eq, timersDown, down_ofNat_sub, down_ofNat_sub]; rfl

/-- If every such tick is its timer stage, `n` ticks are `n` timer stages. -/
theorem core_run_timersDown {s : State} (h : ∀ m, step (timersDown m s) = .next (timersDown m s).timerStage) (n : Nat) :
    core.run n s = .next (timersDown n s) := by
  have hfrom : ∀ m, core.run n (timersDown m s) = .next (timersDown (m + n) s) := by
    induction n with
    | zero => exact fun m => rfl
    | succ n ih =>
      intro m
      rw [core_run_succ (h m), timerStage_timersDown, ih, Nat.add_assoc, Nat.add_comm 1]
  simpa [timersDown_zero] using hfrom 0

theorem core_run_of_idle {s : State} (h : step s = .next s) (n : Nat) : core.run n s = .next s := by
  induction n with
  | zero => rfl
  | succ n ih => rw [core_run_succ h, ih]

/-! ## Paused -/

/-- Ticks are events, and the core runs them one after the other. -/
theorem runEvents_ticks (n : Nat) (s : State) : runEvents (List.replicate n .tick) s = core.run n s := by
  induction n generalizing s with
  | zero => rfl
  | succ n ih =>
    obtain ⟨t, ht⟩ := step_answers s
    rw [List.replicate_succ, runEvents_cons_next (e := .tick) ht, ih, core_run_succ ht]

/-- Pausing, `n` ticks that end in `t`, and resuming. -/
theorem runEvents_pause_resume {o : HostOp} (ho : o = .pause ∨ o = .stop) {n : Nat} {s t : State}
    (h : core.run n { s with run := .paused } = .next t) :
    runEvents (.host o :: List.replicate n .tick ++ [.host .resume]) s = .next { t with run := .running } := by
  have hpause : react (.host o) s = .next { s with run := .paused } := by
    rcases ho with rfl | rfl <;> rfl
  rw [List.cons_append, runEvents_cons_next hpause, runEvents_append, runEvents_ticks, h]
  rfl

/-- Settles O53: paused ticks are idle under `frozen` and timer stages under `timers_only`. -/
theorem pauseThenResumeKeepsState : Obligations.PauseThenResumeKeepsState := by
  refine fun n o s ho hfault => ⟨fun hcfg => ?_, fun hcfg => ?_⟩
  · have hidle : step { s with run := .paused } = .next { s with run := .paused } :=
      (step_of_paused (s := { s with run := .paused }) hfault rfl).trans (pausedTick_frozen hcfg)
    exact runEvents_pause_resume (t := { s with run := .paused }) ho (core_run_of_idle hidle n)
  · have hcounts : ∀ m, step (timersDown m { s with run := .paused }) =
        .next (timersDown m { s with run := .paused }).timerStage := fun m =>
      (step_of_paused (s := timersDown m { s with run := .paused }) hfault rfl).trans (pausedTick_timersOnly hcfg)
    exact runEvents_pause_resume ho (core_run_timersDown hcounts n)

/-! ## Waiting -/

theorem anyKey_eq_false {s : State} (h : ∀ j : Fin 16, s.key[j.val] = false) : s.anyKey = false := by
  rw [← Bool.not_eq_true, anyKey_iff]
  simp [h]

/-- Settles O41: a waiting tick is its timer stage; the tick that ends the wait executes Fx0A, which takes the lowest
key (WaitForKeyTakesLowestOrArms) and writes no timer (TimersCountDownOncePerTick). -/
theorem waitingLastsUntilAKey : Obligations.WaitingLastsUntilAKey := by
  intro n s hfault hrun hwait
  refine ⟨fun hnone => core_run_timersDown (fun m => ?_) n, fun x k hk hlowest hi => ?_⟩
  · have hstill : s.stillWaiting = true := by simp [State.stillWaiting, hwait, anyKey_eq_false hnone]
    exact step_of_waiting (s := timersDown m s) hfault hrun hstill
  · obtain ⟨-, hkeys⟩ := waitForKeyTakesLowestOrArms
    obtain ⟨hpressed, -⟩ := hkeys x s
    obtain ⟨-, htick⟩ := hpressed k hk hlowest
    obtain ⟨t, hstep, hV, hclear, hpc⟩ := htick hi
    obtain ⟨t', hstep', hdt, -⟩ := timersCountDownOncePerTick s hfault hrun
    cases hstep.symm.trans hstep'
    exact ⟨t, hstep, hclear, hV, hpc, hdt fun y hy => by simpa using (executes_iff_eq hi).1 hy⟩

end Sys2Proof.Proofs
end

section
/-! PROOF. The halted state (spec/70_reset_and_hazards.md R286). -/

namespace Sys2Proof.Proofs

open Sys2Proof Sys2Proof.Machine Sys2Proof.Claims

/-- The word of the jump to a PC below MEM_SIZE, as a sum. -/
theorem selfJump_toNat {pc : Word} (h : pc.toNat < 4096) : (0x1000 ||| pc).toNat = 0x1000 + pc.toNat := by
  rw [BitVec.toNat_or, show (0x1000 : Word).toNat = 1 <<< 12 from rfl, ← Nat.shiftLeft_add_eq_or_of_lt h]; rfl

/-- A halted state executes a jump to its own PC. -/
theorem executes_selfJump {s : State} (h : s.halted = true) :
    ∃ nnn : Addr12, nnn.toNat = s.pc.toNat ∧ Executes s (.jp nnn) := by
  obtain ⟨hfault, hrun, hwait, hpc, hword⟩ := s.halted_iff.1 h
  have hlt : s.pc.toNat < 4096 := (Nat.lt_succ_self _).trans hpc
  have hsum := selfJump_toNat hlt
  have hn : n1 s.fetchWord = 0x1#4 := by
    rw [hword]
    exact n1_eq (by decide) (by omega)
  refine ⟨fieldNNN s.fetchWord, ?_, ?_⟩
  · rw [fieldNNN_toNat, hword, hsum]; omega
  · exact executes_iff.2 ⟨⟨hfault, hrun, by simp [hwait], hpc⟩, decodeWord_jp_row hn⟩

/-- The tick of a halted state: the self-jump takes PC back to where it was. -/
theorem step_of_halted {s : State} (h : s.halted = true) :
    step s = .next { s with dt := down s.dt, st := down s.st, opcode := 0x1000 ||| s.pc, unimpl := false } := by
  obtain ⟨nnn, hnnn, hi⟩ := executes_selfJump h
  obtain ⟨-, -, hwait, -, hword⟩ := s.halted_iff.1 h
  have hback : BitVec.ofNat 16 nnn.toNat = s.pc := by rw [hnnn, BitVec.ofNat_toNat, BitVec.setWidth_eq]
  rw [step_of_exec_not_waiting (t := (entry s s.fetchWord).setPc nnn.toNat) hi rfl rfl]
  simp only [entry, State.setPc, hback, hword, hwait]

/-- Whether a state is halted rests on PC, memory, the run state, the wait flag and the latch. -/
theorem halted_congr {s t : State} (hpc : t.pc = s.pc) (hmem : t.mem = s.mem) (hrun : t.run = s.run)
    (hwait : t.waitKey = s.waitKey) (hfault : t.fault = s.fault) : t.halted = s.halted := by
  simp only [State.halted, State.fetchFaults, State.fetchWord, hpc, hmem, hrun, hwait, hfault]

/-- Settles O57: the tick of a halted state moves no field that halting rests on. -/
theorem haltedStateStaysHalted : Obligations.HaltedStateStaysHalted := fun _ h =>
  ⟨_, step_of_halted h, (halted_congr rfl rfl rfl rfl rfl).trans h, rfl⟩

end Sys2Proof.Proofs
end

section
/-! PROOF. Where a run ends, and what its end says (spec/70_reset_and_hazards.md R286). The two sides of the
characterisation, `runFrom` and the first tick that leaves a halted or faulted state, unfold alike at each event. -/

namespace Sys2Proof.Proofs

open Sys2Proof Sys2Proof.Machine Sys2Proof.Claims

/-! ## One event of a run -/

theorem ended_eq_true_iff (s : State) : s.ended = true ↔ s.halted = true ∨ s.fault ≠ .none := by
  rw [State.ended_iff, State.faulted_iff]

theorem ended_eq_false_iff (s : State) : s.ended = false ↔ s.halted = false ∧ s.fault = .none := by
  rw [← Bool.not_eq_true, ended_eq_true_iff, not_or, not_not, Bool.not_eq_true]

/-- Every event of a run has a transition. -/
theorem runEvent_answers (e : RunEvent) (s : State) : ∃ t, react e.toEvent s = .next t := by
  cases e with
  | tick => exact step_answers s
  | key k b => exact ⟨_, react_key k b s⟩

/-- One event of `runFrom`, given the state it leaves: a tick may end the run, and counts. -/
theorem runFrom_cons (m : Nat) {e : RunEvent} (es : List RunEvent) {s u : State} (h : react e.toEvent s = .next u) :
    runFrom m (e :: es) s =
      if e = .tick then (if u.ended then .ended (m + 1) u else runFrom (m + 1) es u) else runFrom m es u := by
  cases e with
  | tick => exact runFrom_tick m es h
  | key k b =>
    cases (react_key k b s).symm.trans h
    exact runFrom_key m k b es s

/-! ## The characterisation -/

/-- No tick of `events` leaves a halted or faulted state. -/
def NoEnd (events : List RunEvent) (s : State) : Prop :=
  ∀ b u, b ++ [.tick] <+: events → runEvents ((b ++ [.tick]).map RunEvent.toEvent) s = .next u →
    u.halted = false ∧ u.fault = .none

/-- The `n`-th tick of `events` is the first to leave a halted or faulted state, and it leaves `t`. -/
def EndsAt (events : List RunEvent) (s : State) (n : Nat) (t : State) : Prop :=
  ∃ before rest, events = before ++ .tick :: rest ∧ n = before.count .tick + 1 ∧
    runEvents ((before ++ [.tick]).map RunEvent.toEvent) s = .next t ∧ (t.halted = true ∨ t.fault ≠ .none) ∧
    NoEnd before s

theorem noEnd_nil (s : State) : NoEnd [] s := fun b _ hb => by simp at hb

theorem noEnd_cons {e : RunEvent} {es : List RunEvent} {s u : State} (h : react e.toEvent s = .next u) :
    NoEnd (e :: es) s ↔ (e = .tick → u.ended = false) ∧ NoEnd es u := by
  constructor
  · refine fun hno => ⟨?_, fun b w hb hw => ?_⟩
    · rintro rfl
      exact (ended_eq_false_iff u).2 (hno [] u (by simp) ((runEvents_cons_next h).trans rfl))
    · exact hno (e :: b) w (by simpa using hb) ((runEvents_cons_next h).trans hw)
  · rintro ⟨hfirst, hrest⟩ b w hb hw
    cases b with
    | nil =>
      obtain rfl : e = .tick := (List.cons_prefix_cons.1 hb).1.symm
      cases (runEvents_cons_next h).symm.trans hw
      exact (ended_eq_false_iff _).1 (hfirst rfl)
    | cons f b =>
      obtain ⟨rfl, hb'⟩ := List.cons_prefix_cons.1 hb
      exact hrest b w hb' ((runEvents_cons_next h).symm.trans hw)

theorem not_endsAt_nil (s : State) (n : Nat) (t : State) : ¬ EndsAt [] s n t := by
  rintro ⟨before, rest, h, -⟩
  simp at h

/-- The first tick that ends the run is the first event, or lies in the rest. -/
theorem endsAt_cons {e : RunEvent} {es : List RunEvent} {s u : State} (h : react e.toEvent s = .next u)
    {n : Nat} {t : State} :
    EndsAt (e :: es) s n t ↔
      (e = .tick ∧ u.ended = true ∧ n = 1 ∧ t = u) ∨
      ((e = .tick → u.ended = false) ∧ ∃ k, n = k + (if e = .tick then 1 else 0) ∧ EndsAt es u k t) := by
  constructor
  · rintro ⟨before, rest, hsplit, hn, hrun, hend, hno⟩
    cases before with
    | nil =>
      obtain ⟨rfl, rfl⟩ := List.cons.inj hsplit
      cases (runEvents_cons_next h).symm.trans hrun
      exact .inl ⟨rfl, (ended_eq_true_iff u).2 hend, by simpa using hn, rfl⟩
    | cons f before =>
      obtain ⟨rfl, rfl⟩ := List.cons.inj hsplit
      obtain ⟨hfirst, hno⟩ := (noEnd_cons h).1 hno
      refine .inr ⟨hfirst, before.count .tick + 1, ?_, before, rest, rfl, rfl,
        (runEvents_cons_next h).symm.trans hrun, hend, hno⟩
      rw [hn, List.count_cons]
      simp only [beq_iff_eq]; omega
  · rintro (⟨rfl, hend, rfl, rfl⟩ | ⟨hfirst, k, rfl, before, rest, rfl, rfl, hrun, hend, hno⟩)
    · exact ⟨[], es, rfl, rfl, (runEvents_cons_next h).trans rfl, (ended_eq_true_iff _).1 hend, noEnd_nil s⟩
    · refine ⟨e :: before, rest, rfl, ?_, (runEvents_cons_next h).trans hrun, hend, (noEnd_cons h).2 ⟨hfirst, hno⟩⟩
      rw [List.count_cons]
      simp only [beq_iff_eq]; omega

/-- Where `runFrom` ends, after `m` ticks before it. -/
theorem runFrom_eq_ended_iff (events : List RunEvent) (m : Nat) (s : State) {n : Nat} {t : State} :
    runFrom m events s = .ended n t ↔ ∃ k, n = m + k ∧ EndsAt events s k t := by
  induction events generalizing m s with
  | nil => simp [not_endsAt_nil]
  | cons e es ih =>
    obtain ⟨u, hu⟩ := runEvent_answers e s
    rw [runFrom_cons m es hu]
    simp only [endsAt_cons hu]
    by_cases he : e = .tick
    · cases hend : u.ended with
      | true => simp [he, eq_comm, and_comm]
      | false =>
        simp only [he, ih, if_true, Bool.false_eq_true, if_false, true_and, false_and, false_or, forall_const]
        constructor
        · rintro ⟨k, rfl, hk⟩
          exact ⟨k + 1, by omega, k, rfl, hk⟩
        · rintro ⟨_, rfl, k, rfl, hk⟩
          exact ⟨k, by omega, hk⟩
    · simp [he, ih]

/-- Where `runFrom` goes on. -/
theorem runFrom_eq_going_iff (events : List RunEvent) (m : Nat) (s : State) {t : State} :
    runFrom m events s = .going t ↔
      runEvents (events.map RunEvent.toEvent) s = .next t ∧ NoEnd events s := by
  induction events generalizing m s with
  | nil => simp [noEnd_nil, runEvents]
  | cons e es ih =>
    obtain ⟨u, hu⟩ := runEvent_answers e s
    rw [runFrom_cons m es hu, List.map_cons, runEvents_cons_next hu, noEnd_cons hu]
    by_cases he : e = .tick
    · cases hend : u.ended <;> simp [he, ih]
    · simp [he, ih]

/-- Settles O58: `runToEnd` counts from 0, and the two sides unfold alike along the events. -/
theorem runEndsAtFirstHaltedOrFaultedTick : Obligations.RunEndsAtFirstHaltedOrFaultedTick := by
  refine fun events s t => ⟨fun n => ?_, runFrom_eq_going_iff events 0 s⟩
  rw [runToEnd, runFrom_eq_ended_iff]
  simp only [Nat.zero_add, exists_eq_left']
  rfl

/-! ## What an end says -/

/-- A run has ended at a tick counted from 1, or goes on. -/
theorem runToEnd_cases (events : List RunEvent) (s : State) :
    (∃ n t, runToEnd events s = .ended n t ∧ 0 < n) ∨ (∃ t, runToEnd events s = .going t) := by
  have hfrom : ∀ m, (∃ n t, runFrom m events s = .ended n t ∧ m < n) ∨ ∃ t, runFrom m events s = .going t := by
    induction events generalizing s with
    | nil => exact fun m => .inr ⟨s, rfl⟩
    | cons e es ih =>
      intro m
      obtain ⟨u, hu⟩ := runEvent_answers e s
      rw [runFrom_cons m es hu]
      by_cases he : e = .tick
      · cases hend : u.ended with
        | true => exact .inl ⟨m + 1, u, by simp [he], Nat.lt_succ_self m⟩
        | false =>
          simp only [he, if_true, Bool.false_eq_true, if_false]
          exact (ih u (m + 1)).imp_left fun ⟨n, t, ht, hn⟩ => ⟨n, t, ht, by omega⟩
      · simpa only [he, if_false] using ih u m
  exact hfrom 0

/-- The state a run ends in is halted or faulted. -/
theorem ended_of_runToEnd {events : List RunEvent} {s t : State} {n : Nat} (h : runToEnd events s = .ended n t) :
    t.halted = true ∨ t.fault ≠ .none := by
  obtain ⟨k, -, _, _, -, -, -, hend, -⟩ := (runFrom_eq_ended_iff events 0 s).1 h
  exact hend

/-- What a run event changes in a halted state `t`: the timers, the keys, the current opcode and the report. -/
def StillHalted (t u : State) : Prop :=
  u.halted = true ∧ u = { t with dt := u.dt, st := u.st, key := u.key, opcode := u.opcode, unimpl := u.unimpl }

theorem stillHalted_of_react {e : RunEvent} {t u w : State} (hu : StillHalted t u) (h : react e.toEvent u = .next w) :
    StillHalted t w := by
  obtain ⟨hhalted, hframe⟩ := hu
  cases e with
  | tick =>
    cases (step_of_halted hhalted).symm.trans h
    refine ⟨(halted_congr rfl rfl rfl rfl rfl).trans hhalted, ?_⟩
    rw [hframe]
  | key k b =>
    cases (react_key k b u).symm.trans h
    refine ⟨(halted_congr rfl rfl rfl rfl rfl).trans hhalted, ?_⟩
    rw [hframe]

theorem fault_none_of_halted {s : State} (h : s.halted = true) : s.fault = .none := (s.halted_iff.1 h).1

/-- A waiting state without a fault is not halted: its wait flag is set. -/
theorem not_ended_of_waiting {s : State} (hfault : s.fault = .none) (hwait : s.waiting = true) : s.ended = false := by
  rw [ended_eq_false_iff]
  refine ⟨?_, hfault⟩
  rw [← Bool.not_eq_true]
  intro hhalted
  obtain ⟨-, -, hclear, -⟩ := s.halted_iff.1 hhalted
  simp [State.waiting, State.stillWaiting, hclear] at hwait

/-- Settles O60: an end without a fault is a halted one, and each further event keeps it so. -/
theorem onlyAHaltedEndHasAResult : Obligations.OnlyAHaltedEndHasAResult := by
  refine ⟨fun events s t n P hend => ?_, fun s => not_ended_of_waiting⟩
  have hhalted : t.fault = .none → t.halted = true := fun h => (ended_of_runToEnd hend).resolve_right (not_not.2 h)
  refine ⟨?_, fun hfault more u hrun => ?_⟩
  · rw [hend]
    exact and_congr_left fun _ => ⟨fault_none_of_halted, hhalted⟩
  · refine runEvents_keeps (P := StillHalted t) (fun e he u w hu hw => ?_) ⟨hhalted hfault, rfl⟩ hrun
    obtain ⟨f, -, rfl⟩ := List.mem_map.1 he
    exact stillHalted_of_react hu hw

end Sys2Proof.Proofs
end

section
/-! PROOF. Launch states (spec/70_reset_and_hazards.md R270, R278, R279). -/

namespace Sys2Proof.Proofs

open Sys2Proof Sys2Proof.Machine Sys2Proof.Claims

/-- A core ready to run its program from LOAD_ADDR, with everything a program can read of it clear. -/
structure AtStart (s : State) : Prop where
  legal    : s.cfg.loadAddr < memSize
  pc       : s.pc.toNat = s.cfg.loadAddr
  run      : s.run = .running
  fault    : s.fault = .none
  waitKey  : s.waitKey = false
  regs     : ∀ r, s.V r = 0
  i        : s.i = 0
  dt       : s.dt = 0
  st       : s.st = 0
  pix      : ∀ px py, s.pix.cell px py = false

/-- The load after power-on. -/
theorem atStart_of_load {c : Config} (hc : c.wellFormed = true) {bytes : List Byte} {s : State}
    (h : hostOp (.load bytes) (powerOn c) = .next s) : AtStart s := by
  have haddr : (powerOn c).cfg.loadAddr < memSize := loadAddr_lt hc
  by_cases hfits : (powerOn c).cfg.loadAddr + bytes.length ≤ memSize
  · cases (hostOp_load_fits hfits).symm.trans h
    exact ⟨haddr, setPc_toNat_of_lt_memSize (powerOn c) haddr, rfl, rfl, rfl, powerOn_V c, rfl, rfl, rfl,
      Display.cell_blank _ _⟩
  · cases (hostOp_load_refused (Nat.lt_of_not_le hfits)).symm.trans h

theorem atStart_of_hostKey {k : Nat} {b : Bool} {s t : State} (hs : AtStart s) (h : hostKey k b s = .next t) :
    AtStart t := by
  by_cases hk : k < nkey
  · cases (hostKey_inRange hk b s).symm.trans h; exact { hs with }
  · cases (hostKey_refused (Nat.le_of_not_lt hk) b s).symm.trans h

/-- `start` and key events leave such a core so. -/
theorem atStart_of_boot {o : HostOp} (ho : o.ofBoot = true) {s t : State} (hs : AtStart s)
    (h : hostOp o s = .next t) : AtStart t := by
  cases o with
  | start => cases h; exact { hs with pc := setPc_toNat_of_lt_memSize s hs.legal, run := rfl }
  | keyPress k => exact atStart_of_hostKey hs h
  | keyRelease k => exact atStart_of_hostKey hs h
  | stop | pause | resume | load => cases ho

theorem atStart_of_isLaunch {s : State} (h : s.IsLaunch) : AtStart s := by
  obtain ⟨c, bytes, boot, hc, hboot, hlaunch⟩ := h
  obtain ⟨u, hload, hrest⟩ := react_of_runEvents_cons hlaunch
  refine runEvents_keeps (P := AtStart) (fun e he s t hs ht => ?_) (atStart_of_load hc hload) hrest
  obtain ⟨o, ho, rfl⟩ := List.mem_map.1 he
  exact atStart_of_boot (List.all_eq_true.1 hboot o ho) hs ht

/-- Settles O59: the boot sequence leaves the core at its start, and no event of a run lacks a transition. -/
theorem launchedRunEndsOrGoesOn : Obligations.LaunchedRunEndsOrGoesOn := by
  intro s hlaunch
  obtain ⟨-, hpc, hrun, hfault, hwait, hregs, hi, hdt, hst, hpix⟩ := atStart_of_isLaunch hlaunch
  exact ⟨hpc, hrun, hfault, hwait, hregs, hi, hdt, hst, hpix, fun events => runToEnd_cases events s⟩

end Sys2Proof.Proofs
end

section
/-! PROOF. The remaining register, jump, random and index instructions (spec/41_control_flow.md R133; 42_alu.md R155 to
R157, R161, R162, R164, R165; 43_index_memory.md R182, R183). -/

namespace Sys2Proof.Proofs

open Sys2Proof Sys2Proof.Machine Sys2Proof.Claims

/-! ## The jump through V0 -/

/-- V0 + nnn is never reduced. -/
theorem setPc_jumpPlusV0_toNat (s : State) (b : Byte) (nnn : Addr12) :
    (s.setPc (b.toNat + nnn.toNat)).pc.toNat = b.toNat + nnn.toNat := by
  have := jumpPlusV0_le b nnn
  rw [State.setPc_pc, BitVec.toNat_ofNat]; omega

/-- Settles O12: the decoder's row of Bnnn, and the jump as one write of PC. -/
theorem jumpPlusV0GoesToSum : Obligations.JumpPlusV0GoesToSum :=
  ⟨encodesNNN_of_row (op := 0xB) (by decide) fun _ => decodeWord_jpV0_row,
    fun nnn s => ⟨_, rfl, setPc_jumpPlusV0_toNat s (s.V V0) nnn, frame_setPc s _⟩⟩

/-! ## Logic and the reversed subtraction -/

/-- Settles O15: the decoder's three rows, and each instruction as one write of Vx, read bit by bit. -/
theorem logicActsBitwise : Obligations.LogicActsBitwise := by
  refine ⟨encodesXY_of_row (op := 0x8) (n := 0x1) (by decide) (by decide) fun _ => decodeWord_orReg_row,
    encodesXY_of_row (op := 0x8) (n := 0x2) (by decide) (by decide) fun _ => decodeWord_andReg_row,
    encodesXY_of_row (op := 0x8) (n := 0x3) (by decide) (by decide) fun _ => decodeWord_xorReg_row,
    fun x y s => ⟨?_, ?_, ?_⟩⟩
  · exact ⟨s.setV x (s.V x ||| s.V y), rfl, fun k _ => by simp, frame_setV s x _⟩
  · exact ⟨s.setV x (s.V x &&& s.V y), rfl, fun k _ => by simp, frame_setV s x _⟩
  · exact ⟨s.setV x (s.V x ^^^ s.V y), rfl, fun k _ => by simp, frame_setV s x _⟩

/-- Settles O18: the decoder's row of 8xy7, and not borrow, of the operands as they were, as the write that comes
last. -/
theorem reverseSubtractSetsDifferenceAndNotBorrow : Obligations.ReverseSubtractSetsDifferenceAndNotBorrow := by
  refine ⟨encodesXY_of_row (op := 0x8) (n := 0x7) (by decide) (by decide) fun _ => decodeWord_subn_row,
    fun x y s => ⟨_, rfl, ?_, fun hx => ?_, frame_setV_flag s x _ _⟩⟩
  · simp [notBorrowFlag, flagByte_toNat]
  · simpa [hx] using byte_sub_toNat (s.V y) (s.V x)

/-! ## Shifts of VF -/

theorem shiftSource_prestate {s : State} (h : s.cfg.shiftVfDest = .prestate) (flagged : State) (x : Reg) :
    shiftSource s flagged x = s.V x := by
  rw [shiftSource, h]

theorem shiftSource_sequential {s : State} (h : s.cfg.shiftVfDest = .sequential) (flagged : State) (x : Reg) :
    shiftSource s flagged x = flagged.V x := by
  rw [shiftSource, h]

/-- Two writes of VF, the second of which stands. -/
theorem frame_flag_setV_VF (s : State) (flag b : Byte) :
    Frame { regs := [VF] } s ((s.setV VF flag).setV VF b) :=
  frame_setV_of_mem b (by simp) (frame_setV s VF flag)

/-- Settles O21: VF ends as the second write left it, which shifts the operand or the flag. -/
theorem shiftOfVFFollowsParameter : Obligations.ShiftOfVFFollowsParameter := by
  refine fun y s => ⟨⟨_, rfl, frame_flag_setV_VF s _ _, fun h => ?_, fun h => ?_⟩,
    ⟨_, rfl, frame_flag_setV_VF s _ _, fun h => ?_, fun h => ?_⟩⟩
  · rw [State.setV_V, if_pos rfl, shiftSource_prestate h]
    simp [Nat.shiftRight_eq_div_pow]
  · apply BitVec.eq_of_toNat_eq
    rw [State.setV_V, if_pos rfl, shiftSource_sequential h, State.setV_V, if_pos rfl, BitVec.toNat_ushiftRight,
      Nat.shiftRight_eq_div_pow, shiftOutRight_toNat]
    show (s.V VF).toNat % 2 / 2 = 0
    omega
  · rw [State.setV_V, if_pos rfl, shiftSource_prestate h]
    simp [Nat.shiftLeft_eq]
  · rw [State.setV_V, if_pos rfl, shiftSource_sequential h, State.setV_V, if_pos rfl, BitVec.toNat_shiftLeft,
      Nat.shiftLeft_eq, shiftOutLeft_toNat_eq_ite]
    split <;> rfl

/-! ## The random byte -/

/-- The draw counter, then the register. -/
theorem frame_rnd (s : State) (x : Reg) (b : Byte) (d : Nat) :
    Frame { regs := [x], draws := true } s ({ s with draws := d }.setV x b) :=
  frame_setV_of_mem b (by simp) (by simp [Frame, State.V])

theorem draw8_le (raw nn : Byte) : (draw8 raw nn).toNat ≤ nn.toNat := by
  rw [draw8_toNat]
  exact Nat.le_of_lt_succ (Nat.mod_lt _ (Nat.succ_pos _))

/-- A byte of the range comes from itself as the raw byte. -/
theorem draw8_of_le {r nn : Byte} (h : r.toNat ≤ nn.toNat) : draw8 r nn = r := by
  apply BitVec.eq_of_toNat_eq
  rw [draw8_toNat, Nat.mod_eq_of_lt (Nat.lt_succ_of_le h)]

/-- Settles O22: the decoder's row of Cxnn, the draw as one write of Vx within the bound, and a raw byte for each
result. -/
theorem randomByteIsWithinBound : Obligations.RandomByteIsWithinBound := by
  refine ⟨encodesXNN_of_row (op := 0xC) (by decide) fun _ => decodeWord_rnd_row,
    fun x nn s => ⟨_, rfl, ?_, ?_, rfl, frame_rnd s x _ _⟩, fun r nn h => ⟨r, draw8_of_le h⟩⟩
  · rw [State.setV_V, if_pos rfl]
    exact draw8_le _ _
  · rw [State.setV_V, if_pos rfl]

/-! ## Writes of I -/

/-- Settles O24: the decoder's two rows, and each instruction as one write of I. -/
theorem indexAddAndFontAddress : Obligations.IndexAddAndFontAddress :=
  ⟨encodesX_of_row (op := 0xF) (ss := 0x1E) (by decide) (by decide) fun _ => decodeWord_addI_row,
    encodesX_of_row (op := 0xF) (ss := 0x29) (by decide) (by decide) fun _ => decodeWord_ldF_row,
    fun _ s => ⟨⟨_, rfl, setI_i_toNat s _, frame_setI s _⟩, ⟨_, rfl, setI_i_toNat s _, frame_setI s _⟩⟩⟩

end Sys2Proof.Proofs
end

section
/-! PROOF. The key skips Ex9E and ExA1 (spec/45_timers_input.md R220 to R222). -/

namespace Sys2Proof.Proofs

open Sys2Proof Sys2Proof.Machine Sys2Proof.Claims

/-- `pressed(v)` of a byte that names key `k`. -/
theorem pressed_of_key {s : State} {v : Byte} {k : Fin 16} (h : v.toNat = k.val) :
    s.pressed v = some s.key[k.val] := by
  have := s.pressed_inRange v (h ▸ k.isLt)
  simpa only [h] using this

theorem pressed_notPressed {s : State} {v : Byte} (h : 16 ≤ v.toNat) (hcfg : s.cfg.keyOor = .notPressed) :
    s.pressed v = some false := by
  rw [s.pressed_outOfRange v h, hcfg]

theorem pressed_fault {s : State} {v : Byte} (h : 16 ≤ v.toNat) (hcfg : s.cfg.keyOor = .fault) :
    s.pressed v = none := by
  rw [s.pressed_outOfRange v h, hcfg]

/-- Settles O38: the decoder's two rows, and each skip by what `pressed` gives for Vx. -/
theorem keySkipsReadTheNamedKey : Obligations.KeySkipsReadTheNamedKey := by
  refine ⟨encodesX_of_row (op := 0xE) (ss := 0x9E) (by decide) (by decide) fun _ => decodeWord_skp_row,
    encodesX_of_row (op := 0xE) (ss := 0xA1) (by decide) (by decide) fun _ => decodeWord_sknp_row,
    fun x s => ⟨fun k hk => ?named, fun hx hcfg => ?notPressed, fun hx hcfg => ?fault⟩⟩
  case named =>
    have hp := pressed_of_key (s := s) hk
    exact ⟨skipsWhen_of_exec_eq_skipIf (exec_skp_pressed hp) Iff.rfl,
      skipsWhen_of_exec_eq_skipIf (exec_sknp_pressed hp) (by simp)⟩
  case notPressed =>
    have hp := pressed_notPressed (s := s) hx hcfg
    exact ⟨skipsWhen_of_exec_eq_skipIf (exec_skp_pressed hp) (by simp),
      skipsWhen_of_exec_eq_skipIf (exec_sknp_pressed hp) (by simp)⟩
  case fault =>
    have hp := pressed_fault (s := s) hx hcfg
    exact ⟨exec_skp_keyOor hp, exec_sknp_keyOor hp⟩

end Sys2Proof.Proofs
end

section
/-! PROOF. Memory is read after write, and its canonical form is one list for each contents (spec/20_memory.md R50 to
R53, R63). -/

namespace Sys2Proof.Proofs

open Sys2Proof Sys2Proof.Machine Sys2Proof.Claims

/-- The first cell of a canonical list, and the rest. -/
theorem wfFrom_cons_iff (lo k : Nat) (b : Byte) (cs : List Host.Cell) :
    Memory.wfFrom lo ((k, b) :: cs) = true ↔
      lo ≤ k ∧ k < memSize ∧ b ≠ Memory.unlisted ∧ Memory.wfFrom (k + 1) cs = true := by
  simp only [Memory.wfFrom, Bool.and_eq_true, decide_eq_true_eq, bne_iff_ne, and_assoc]

theorem lookup_cons_self (k : Nat) (b : Byte) (cs : List Host.Cell) : Memory.lookup ((k, b) :: cs) k = b :=
  if_pos rfl

/-- A canonical list reads as something listed at its first address, so no list of higher addresses reads alike. -/
theorem first_address_le {lo k k' : Nat} {b b' : Byte} {cs ds : List Host.Cell}
    (hcs : Memory.wfFrom lo ((k, b) :: cs) = true) (hds : Memory.wfFrom lo ((k', b') :: ds) = true)
    (h : ∀ a, Memory.lookup ((k, b) :: cs) a = Memory.lookup ((k', b') :: ds) a) : k' ≤ k := by
  by_contra hlt
  obtain ⟨-, hk, hb, -⟩ := (wfFrom_cons_iff lo k b cs).1 hcs
  obtain ⟨-, hk', hb', htail⟩ := (wfFrom_cons_iff lo k' b' ds).1 hds
  have hbelow : Memory.lookup ((k', b') :: ds) k = Memory.unlisted :=
    Memory.lookup_below ((wfFrom_cons_iff k' k' b' ds).2 ⟨le_rfl, hk', hb', htail⟩) (Nat.lt_of_not_le hlt)
  exact hb ((lookup_cons_self k b cs).symm.trans ((h k).trans hbelow))

/-- Two canonical lists that read alike are the same list. -/
theorem wfFrom_ext {lo : Nat} {cs ds : List Host.Cell} (hcs : Memory.wfFrom lo cs = true)
    (hds : Memory.wfFrom lo ds = true) (h : ∀ a, Memory.lookup cs a = Memory.lookup ds a) : cs = ds := by
  induction cs generalizing lo ds with
  | nil =>
    cases ds with
    | nil => rfl
    | cons d ds =>
      obtain ⟨-, -, hb, -⟩ := (wfFrom_cons_iff lo d.1 d.2 ds).1 hds
      exact absurd ((lookup_cons_self d.1 d.2 ds).symm.trans (h d.1).symm) hb
  | cons c cs ih =>
    obtain ⟨k, b⟩ := c
    cases ds with
    | nil =>
      obtain ⟨-, -, hb, -⟩ := (wfFrom_cons_iff lo k b cs).1 hcs
      exact absurd ((lookup_cons_self k b cs).symm.trans (h k)) hb
    | cons d ds =>
      obtain ⟨k', b'⟩ := d
      obtain rfl : k = k' :=
        Nat.le_antisymm (first_address_le hds hcs fun a => (h a).symm) (first_address_le hcs hds h)
      obtain rfl : b = b' := by simpa [lookup_cons_self] using h k
      obtain ⟨-, -, -, hcs⟩ := (wfFrom_cons_iff lo k b cs).1 hcs
      obtain ⟨-, -, -, hds⟩ := (wfFrom_cons_iff lo k b ds).1 hds
      rw [ih hcs hds fun a => ?_]
      by_cases ha : k = a
      · rw [Memory.lookup_below hcs (by omega), Memory.lookup_below hds (by omega)]
      · simpa [Memory.lookup, ha] using h a

theorem memory_ext {m m' : Memory} (hm : m.wf = true) (hm' : m'.wf = true) (h : ∀ a, m'.get a = m.get a) :
    m' = m :=
  congrArg Memory.mk (wfFrom_ext hm' hm h)

/-- Settles O30: the write in canonical form, the two reads, and the extensionality of the form. -/
theorem memoryIsReadAfterWrite : Obligations.MemoryIsReadAfterWrite := by
  refine fun m a b hm ha => ⟨Memory.set_wf hm ha b, fun c => ?_, fun m' hm' => memory_ext hm hm'⟩
  split
  · subst_vars; exact Memory.get_set_self hm _ b
  · exact Memory.get_set_ne m ‹_› b

end Sys2Proof.Proofs
end

section
/-! PROOF. The decimal digits Fx33, the register dump Fx55 and the register load Fx65 (spec/43_index_memory.md R184 to
R188), and the fetch of what was stored (20_memory.md R67). -/

namespace Sys2Proof.Proofs

open Sys2Proof Sys2Proof.Machine Sys2Proof.Claims

/-! ## Frames of memory, and of many registers -/

theorem frame_mem {c : Changes} {s t : State} (h : Frame c s t) {m : Memory}
    (hm : ∀ a, ¬ c.stored a → m.get a = s.mem.get a) : Frame c s { t with mem := m } := by
  obtain ⟨hregs, -, hrest⟩ := h
  exact ⟨hregs, hm, hrest⟩

theorem frame_setI_of_frame {c : Changes} (hi : c.i = true) {s t : State} (h : Frame c s t) (n : Nat) :
    Frame c s (t.setI n) := by
  obtain ⟨hregs, hmem, hpc, -, hrest⟩ := h
  exact ⟨hregs, hmem, hpc, fun hi' => by simp [hi] at hi', hrest⟩

theorem frame_loadV {s : State} {bs : List Byte} {c : Changes} (h : ∀ r : Reg, r ∉ c.regs → bs.length ≤ r.val) :
    Frame c s (s.loadV bs) := by
  refine ⟨fun r hr => ?_, by simp⟩
  rw [State.loadV_V]
  exact List.getD_eq_default _ _ (h r hr)

/-! ## Fx33 -/

/-- The digits of a byte, least significant first (R184). -/
def bcdDigits (v : Byte) : List Byte :=
  [BitVec.ofNat 8 (v.toNat % 10), BitVec.ofNat 8 (v.toNat / 10 % 10), BitVec.ofNat 8 (v.toNat / 100)]

/-- Each place that Fx33 writes holds its digit. -/
theorem bcdBytes_getD {c : Config} {v : Byte} {j : Nat} (h : j < bcdCount c v) :
    (bcdBytes c v).getD j 0 = (bcdDigits v).getD j 0 := by
  simp [bcdBytes, bcdDigits, List.getD, h]

/-- The digits Fx33 wrote, read back. -/
theorem get_bcdBytes {s : State} {v : Byte} (hwf : s.mem.wf = true)
    (hfits : bcdCount s.cfg v = 0 ∨ s.i.toNat + bcdCount s.cfg v ≤ memSize) {j : Nat} (hj : j < bcdCount s.cfg v) :
    (s.mem.writeBytes s.i.toNat (bcdBytes s.cfg v)).get (s.i.toNat + j) = (bcdDigits v).getD j 0 := by
  rw [← bcdBytes_length] at hfits
  rw [Memory.get_writeBytes _ hwf (hfits.imp_left List.length_eq_zero_iff.1) (by rwa [bcdBytes_length]) 0,
    bcdBytes_getD hj]

theorem bcdDigits_toNat (v : Byte) :
    ((bcdDigits v).getD 0 0).toNat = v.toNat % 10 ∧ ((bcdDigits v).getD 1 0).toNat = v.toNat / 10 % 10 ∧
      ((bcdDigits v).getD 2 0).toNat = v.toNat / 100 := by
  have := v.isLt
  simp only [bcdDigits, List.getD_cons_zero, List.getD_cons_succ, BitVec.toNat_ofNat]
  omega

/-- The bytes of the digits, then I. -/
theorem frame_ldB (s : State) (v : Byte) (n : Nat) :
    Frame { i := true, stored := fun a => s.i.toNat ≤ a ∧ a < s.i.toNat + bcdCount s.cfg v } s
      ({ s with mem := s.mem.writeBytes s.i.toNat (bcdBytes s.cfg v) }.setI n) := by
  refine frame_setI_of_frame rfl (frame_mem (frame_refl _ s) fun a ha => ?_) n
  exact Memory.get_writeBytes_ne _ _ (by rw [bcdBytes_length]; omega)

/-- Settles O25: the digits are one run of writes, read back place by place, before the write of I; a run that does not
fit raises. -/
theorem bcdStoresDigitsAndRepointsI : Obligations.BcdStoresDigitsAndRepointsI := by
  refine ⟨encodesX_of_row (op := 0xF) (ss := 0x33) (by decide) (by decide) fun _ => decodeWord_ldB_row,
    fun x s hwf => ?_⟩
  simp only [← bcdCount_eq_digits]
  obtain ⟨hones, htens, hhundreds⟩ := bcdDigits_toNat (s.V x)
  refine ⟨fun hfits => ⟨_, exec_ldB_fits hfits, fun h => ?_, fun h => ?_, fun h => ?_, setI_i_toNat _ _,
    frame_ldB s (s.V x) _⟩, fun hk hover => exec_ldB_raises (not_or.2 ⟨hk, Nat.not_le_of_lt hover⟩)⟩
  · exact (congrArg BitVec.toNat (get_bcdBytes hwf hfits h)).trans hones
  · exact (congrArg BitVec.toNat (get_bcdBytes hwf hfits h)).trans htens
  · exact (congrArg BitVec.toNat (get_bcdBytes hwf hfits h)).trans hhundreds

/-! ## Fx55 and Fx65 -/

/-- What Fx55 stored, read back. -/
theorem get_regsUpTo {s : State} {x r : Reg} (hwf : s.mem.wf = true) (hfits : s.i.toNat + x.val < memSize)
    (hr : r.val ≤ x.val) :
    (s.mem.writeBytes s.i.toNat (s.regsUpTo x)).get (s.i.toNat + r.val) = s.V r := by
  rw [Memory.get_writeBytes _ hwf (.inr (by rw [State.regsUpTo_length]; omega))
    (by rw [State.regsUpTo_length]; omega) 0, State.regsUpTo_get s x r hr]

/-- What Fx65 loads (R187). -/
theorem loadV_readBytes_V {s : State} {x r : Reg} (hr : r.val ≤ x.val) :
    (s.loadV (s.mem.readBytes s.i.toNat (x.val + 1))).V r = s.mem.get (s.i.toNat + r.val) := by
  rw [State.loadV_V, Memory.readBytes_getD, if_pos (Nat.lt_succ_of_le hr)]

/-- Settles O26: the decoder's row of Fx55, and the dump as one run of writes, read back register by register. -/
theorem registerDumpStoresV0ToVx : Obligations.RegisterDumpStoresV0ToVx := by
  refine ⟨encodesX_of_row (op := 0xF) (ss := 0x55) (by decide) (by decide) fun _ => decodeWord_storeRegs_row,
    fun x s hwf hfits => ⟨_, exec_storeRegs_fits hfits, fun r hr => get_regsUpTo hwf hfits hr, ?_⟩⟩
  refine frame_mem (frame_refl _ s) fun a ha => Memory.get_writeBytes_ne _ _ ?_
  rw [State.regsUpTo_length]; omega

/-- Settles O27: the decoder's row of Fx65, and the load as one write of the registers up to Vx. -/
theorem registerLoadReadsV0ToVx : Obligations.RegisterLoadReadsV0ToVx := by
  refine ⟨encodesX_of_row (op := 0xF) (ss := 0x65) (by decide) (by decide) fun _ => decodeWord_loadRegs_row,
    fun x s hfits => ⟨_, execLoadRegs_fits hfits, fun r => loadV_readBytes_V, frame_loadV fun r hr => ?_⟩⟩
  have hlt : ¬ r.val ≤ x.val := by simpa using hr
  rw [Memory.readBytes_length]; omega

/-- Settles O28: both run the same check before any write. -/
theorem registerDumpAndLoadFaultWhole : Obligations.RegisterDumpAndLoadFaultWhole :=
  fun _ _ h => ⟨exec_storeRegs_raises h, execLoadRegs_raises h⟩

/-- Settles O29: the load reads the bytes the dump wrote. -/
theorem dumpThenLoadRestores : Obligations.DumpThenLoadRestores := by
  intro x s t u hwf hfits hexec hmem hi
  cases (exec_storeRegs_fits hfits).symm.trans hexec
  refine ⟨_, execLoadRegs_fits (hi ▸ hfits), fun r hr => ?_⟩
  rw [loadV_readBytes_V hr, hmem, hi]
  exact get_regsUpTo hwf hfits hr

/-! ## Fetching what was stored -/

/-- A ready tick latches the word at PC, whatever it decodes to: no instruction writes the current opcode
(KeysRunStateAndParametersAreTheHosts). -/
theorem step_latches_fetchWord {s : State} (hready : Ready s) : ∃ t, step s = .next t ∧ t.opcode = s.fetchWord := by
  cases hd : decodeWord s.fetchWord with
  | error e => exact ⟨_, step_of_decode_error hready hd, rfl⟩
  | ok i =>
    obtain ⟨t, ht⟩ := exec_answers i (entry s s.fetchWord)
    obtain ⟨hexec, -⟩ := keysRunStateAndParametersAreTheHosts
    obtain ⟨-, -, hopcode, -⟩ := hexec i _ t ht
    refine ⟨t.rollBack, ?_, (State.rollBack_opcode t).trans hopcode⟩
    rw [step_of_executes (executes_iff.2 ⟨hready, hd⟩), ht]; rfl

/-- Settles O31: the tick latches the word at PC, whose bytes are the first two that the dump wrote. -/
theorem storedBytesAreFetched : Obligations.StoredBytesAreFetched := by
  intro x s t u hwf hfits hx hexec hmem hpc hready
  cases (exec_storeRegs_fits hfits).symm.trans hexec
  obtain ⟨w, hstep, hopcode⟩ := step_latches_fetchWord hready
  refine ⟨w, hstep, ?_⟩
  rw [hopcode, State.fetchWord_toNat, hmem, hpc]
  have h0 := get_regsUpTo (r := 0) hwf hfits (Nat.zero_le _)
  have h1 := get_regsUpTo (r := 1) hwf hfits hx
  simp only [Fin.val_zero, Nat.add_zero, Fin.val_one] at h0 h1
  rw [h0, h1]

end Sys2Proof.Proofs
end

section
/-! PROOF. The display port (spec/10_state.md R33; 60_exceptions.md R253). -/

namespace Sys2Proof.Proofs

open Sys2Proof Sys2Proof.Machine Sys2Proof.Claims

/-- Rows of one length, one after the other. -/
theorem length_flatten_of_rows {rows : List (List Bool)} {w : Nat} (h : ∀ row ∈ rows, row.length = w) :
    rows.flatten.length = w * rows.length := by
  rw [List.length_flatten, List.map_congr_left h, List.map_const', List.sum_replicate, smul_eq_mul, Nat.mul_comm]

/-- Entry `px` of row `py` stands at `py * w + px`. -/
theorem getElem?_flatten_of_rows {rows : List (List Bool)} {w px py : Nat} (h : ∀ row ∈ rows, row.length = w)
    (hx : px < w) : rows.flatten[py * w + px]? = rows[py]?.bind (·[px]?) := by
  induction rows generalizing py with
  | nil => rfl
  | cons row rows ih =>
    have hrow : row.length = w := h row List.mem_cons_self
    rw [List.flatten_cons]
    cases py with
    | zero => rw [List.getElem?_append_left (by omega)]; simp
    | succ py =>
      have hsplit : (py + 1) * w + px - row.length = py * w + px := by rw [hrow, Nat.succ_mul]; omega
      rw [List.getElem?_append_right (by rw [hrow, Nat.succ_mul]; omega), hsplit,
        ih fun r hr => h r (List.mem_cons_of_mem row hr)]
      rfl

/-- A cell of the display, where there is one. -/
theorem getElem?_cell {d : Display} {w h px py : Nat} (hd : d.shaped w h) (hx : px < w) (hy : py < h) :
    d.rows.flatten[py * w + px]? = some (d.cell px py) := by
  obtain ⟨hheight, hwidth⟩ := hd
  have hrow : py < d.rows.length := hheight ▸ hy
  have hcell : px < d.rows[py].length := (hwidth _ (List.getElem_mem hrow)).symm ▸ hx
  rw [getElem?_flatten_of_rows hwidth hx, Display.cell, List.getElem?_eq_getElem hrow, List.getD_eq_getElem _ _ hrow,
    List.getD_eq_getElem _ _ hcell]
  exact List.getElem?_eq_getElem hcell

/-- Settles O37: the port reads the rows one after the other. -/
theorem displayPortIsRowMajor : Obligations.DisplayPortIsRowMajor := by
  intro s hd
  obtain ⟨hheight, hwidth⟩ := hd
  refine ⟨rfl, rfl, ?_, fun px py hx hy => ?_⟩
  · rw [displayRead, List.length_map, length_flatten_of_rows hwidth, hheight]
  · rw [displayRead, List.getElem?_map, getElem?_cell ⟨hheight, hwidth⟩ hx hy]
    rfl

end Sys2Proof.Proofs
end

section
/-! SUPPORT. What a draw that completes does to a cell, to VF and to everything else (spec/44_display.md R202 to R206). -/

namespace Sys2Proof.Proofs

open Sys2Proof Sys2Proof.Machine Sys2Proof.Claims

theorem disp_pos {c : Config} (h : c.wellFormed = true) : 1 ≤ c.dispW ∧ 1 ≤ c.dispH := by
  simp only [Config.wellFormed, Config.dispOk, Bool.and_eq_true, decide_eq_true_eq] at h
  exact h.1.2

/-- A draw flips the cells it names an odd number of times (R205). -/
theorem composite_cell {s : State} (hcfg : s.cfg.wellFormed = true) (hpix : s.pix.shaped s.cfg.dispW s.cfg.dispH)
    {ps qs : List (Nat × Nat)} (h : edge s.cfg ps = .ok qs) (px py : Nat) :
    (s.composite qs).pix.cell px py = (s.pix.cell px py != decide (qs.count (px, py) % 2 = 1)) := by
  obtain ⟨hw, hh⟩ := disp_pos hcfg
  exact Display.cell_toggleAll qs (edge_inside hw hh h) hpix px py

theorem composite_shaped {s : State} (hpix : s.pix.shaped s.cfg.dispW s.cfg.dispH) (qs : List (Nat × Nat)) :
    (s.composite qs).pix.shaped s.cfg.dispW s.cfg.dispH :=
  Display.toggleAll_shaped qs hpix

theorem composite_VF_of_ne_nil {qs : List (Nat × Nat)} (h : qs ≠ []) (s : State) : (s.composite qs).V VF = 1 := by
  simp [drawFlag, h]

/-- VF after a draw, when `drawn` says that the draw flips a cell (R206). -/
theorem drawnFlag_composite {s : State} {qs : List (Nat × Nat)} {drawn : Prop} (h : drawn ↔ qs ≠ []) :
    DrawnFlag s (s.composite qs) drawn := by
  have hnil : ¬ drawn → qs = [] := fun hd => not_not.1 (mt h.2 hd)
  refine ⟨fun hd => composite_VF_of_ne_nil (h.1 hd) s, fun hd hvf => ?_, fun hd hvf => ?_⟩
  · simp [drawFlag, hnil hd, hvf]
  · simp [drawFlag, hnil hd, hvf]

theorem frame_composite (s : State) (qs : List (Nat × Nat)) :
    Frame { regs := [VF], pix := true } s (s.composite qs) :=
  frame_setV_of_mem _ (by simp) (by simp [Frame, State.V])

/-- In a list that names nothing twice, an odd number of times is once. -/
theorem odd_count_iff_mem {qs : List (Nat × Nat)} (h : qs.Nodup) (p : Nat × Nat) : qs.count p % 2 = 1 ↔ p ∈ qs := by
  by_cases hp : p ∈ qs
  · simp [hp, List.count_eq_one_of_mem h hp]
  · simp [hp, List.count_eq_zero_of_not_mem hp]

theorem drawnPixels_nodup (x y : Reg) (n : Fin 16) (s : State) : (drawnPixels x y n s).Nodup :=
  spritePixels_nodup _ _ _

theorem hits_iff {x y : Reg} {n : Fin 16} {s : State} {px py : Nat} :
    Hits s (s.V x).toNat (s.V y).toNat n.val px py ↔ (px, py) ∈ drawnPixels x y n s := by
  simp only [Hits, mem_drawnPixels, Prod.mk.injEq, eq_comm]

theorem onDisplay_eq_true_iff (c : Config) (p : Nat × Nat) : onDisplay c p = true ↔ p.1 < c.dispW ∧ p.2 < c.dispH := by
  simp [onDisplay]

/-- `edge` keeps the pixels on the display, under `clip` and under `fault` with none outside. -/
theorem edge_keeps {c : Config} {ps : List (Nat × Nat)}
    (h : c.drawEdge = .clip ∨ (c.drawEdge = .fault ∧ ∀ p ∈ ps, onDisplay c p = true)) :
    edge c ps = .ok (ps.filter (onDisplay c)) := by
  rcases h with hclip | ⟨hfault, hall⟩
  · rw [edge, hclip]
  · have hnone : ps.find? (fun p => !onDisplay c p) = none := by simpa using hall
    rw [edge, hfault]
    simp only [hnone, List.filter_eq_self.2 hall]

theorem edge_wraps {c : Config} (h : c.drawEdge = .wrap) (ps : List (Nat × Nat)) :
    edge c ps = .ok (ps.map fun p => (p.1 % c.dispW, p.2 % c.dispH)) := by
  rw [edge, h]

/-- A pixel on the display is flipped under every `DRAW_EDGE` that lets the draw complete. -/
theorem mem_of_edge_ok {c : Config} {ps qs : List (Nat × Nat)} (h : edge c ps = .ok qs) {p : Nat × Nat} (hp : p ∈ ps)
    (hx : p.1 < c.dispW) (hy : p.2 < c.dispH) : p ∈ qs := by
  have hon : onDisplay c p = true := (onDisplay_eq_true_iff c p).2 ⟨hx, hy⟩
  cases hedge : c.drawEdge with
  | fault =>
    simp only [edge, hedge] at h
    split at h
    · cases h
    · cases h; exact hp
  | clip =>
    cases (edge_keeps (.inl hedge)).symm.trans h
    exact List.mem_filter.2 ⟨hp, hon⟩
  | wrap =>
    cases (edge_wraps hedge ps).symm.trans h
    exact List.mem_map.2 ⟨p, hp, by rw [Nat.mod_eq_of_lt hx, Nat.mod_eq_of_lt hy]⟩

end Sys2Proof.Proofs
end

section
/-! PROOF. Dxyn (spec/44_display.md R202 to R208). -/

namespace Sys2Proof.Proofs

open Sys2Proof Sys2Proof.Machine Sys2Proof.Claims

/-! ## Clipped, or inside the display -/

/-- No set bit outside, as a fact about the pixels. -/
theorem onDisplay_of_not_outside {x y : Reg} {n : Fin 16} {s : State}
    (h : ∀ r c, ¬ Outside s (s.V x).toNat (s.V y).toNat n.val r c) :
    ∀ p ∈ drawnPixels x y n s, onDisplay s.cfg p = true := by
  intro p hp
  obtain ⟨r, c, hbit, rfl⟩ := mem_drawnPixels.1 hp
  rw [← Bool.not_eq_false, onDisplay_eq_false_iff]
  exact fun hout => h r c ⟨hbit, hout⟩

/-- The pixels kept are the cells of the display that a set bit hits. -/
theorem mem_kept_iff {x y : Reg} {n : Fin 16} {s : State} {px py : Nat} :
    (px, py) ∈ (drawnPixels x y n s).filter (onDisplay s.cfg) ↔
      px < s.cfg.dispW ∧ py < s.cfg.dispH ∧ Hits s (s.V x).toNat (s.V y).toNat n.val px py := by
  rw [List.mem_filter, onDisplay_eq_true_iff, hits_iff, and_comm, and_assoc]

/-- Settles O33: the kept pixels are each named once, so each of them flips and no other cell does. -/
theorem drawXorsSprite : Obligations.DrawXorsSprite := by
  refine ⟨encodesXYN_of_row (op := 0xD) (by decide) fun _ => decodeWord_drw_row,
    fun x y n s hinv hfits hmode => ?_⟩
  have hedge := edge_keeps (ps := drawnPixels x y n s) (hmode.imp_right fun ⟨hf, h⟩ => ⟨hf, onDisplay_of_not_outside h⟩)
  have hnodup := (drawnPixels_nodup x y n s).filter (onDisplay s.cfg)
  refine ⟨_, exec_drw_draws hfits hedge, fun px py hx hy => ⟨fun hhit => ?_, fun hmiss => ?_⟩,
    drawnFlag_composite ?_, composite_shaped hinv.pixOk _, frame_composite s _⟩
  · have hodd := (odd_count_iff_mem hnodup (px, py)).2 (mem_kept_iff.2 ⟨hx, hy, hhit⟩)
    rw [composite_cell hinv.cfgOk hinv.pixOk hedge, hodd]
    simp
  · have hnot : (px, py) ∉ (drawnPixels x y n s).filter (onDisplay s.cfg) := fun h => by
      obtain ⟨-, -, hhit⟩ := mem_kept_iff.1 h
      exact hmiss hhit
    have heven := mt (odd_count_iff_mem hnodup (px, py)).1 hnot
    rw [composite_cell hinv.cfgOk hinv.pixOk hedge, decide_eq_false heven, Bool.bne_false]
  · simp only [← mem_kept_iff, ne_eq, List.eq_nil_iff_forall_not_mem, Prod.forall, not_forall, not_not]

/-! ## Wrapped -/

/-- The offsets (row, column) of an `n`-row sprite. -/
def spriteOffsets (n : Nat) : List (Nat × Nat) := List.range n ×ˢ List.range 8

/-- The pixels of a draw, from the offsets whose bit is set. -/
theorem drawnPixels_perm (x y : Reg) (n : Fin 16) (s : State) :
    (drawnPixels x y n s).Perm
      (((spriteOffsets n.val).filter fun p => SpriteBit s n.val p.1 p.2).map
        fun p => ((s.V x).toNat + p.2, (s.V y).toNat + p.1)) := by
  have hnodup : (spriteOffsets n.val).Nodup := List.nodup_range.product List.nodup_range
  refine (List.perm_ext_iff_of_nodup (drawnPixels_nodup x y n s) ((hnodup.filter _).map ?_)).2 fun p => ?_
  · rintro ⟨r, c⟩ ⟨r', c'⟩ h
    simp only [Prod.mk.injEq, Nat.add_left_cancel_iff] at h ⊢
    exact h.symm
  · simp only [mem_drawnPixels, List.mem_map, List.mem_filter, spriteOffsets, List.mem_product, List.mem_range,
      Prod.exists]
    refine exists_congr fun r => exists_congr fun c => ⟨?_, ?_⟩
    · rintro ⟨hbit, rfl⟩
      exact ⟨⟨spriteBit_bounds hbit, hbit⟩, rfl⟩
    · rintro ⟨⟨-, hbit⟩, rfl⟩
      exact ⟨hbit, rfl⟩

/-- How many pixels wrap to a cell. -/
theorem count_wrapped {x y : Reg} {n : Fin 16} {s : State} {px py : Nat} :
    ((drawnPixels x y n s).map fun p => (p.1 % s.cfg.dispW, p.2 % s.cfg.dispH)).count (px, py) =
      wrapHits s (s.V x).toNat (s.V y).toNat n.val px py := by
  rw [List.count, List.countP_map, (drawnPixels_perm x y n s).countP_eq, List.countP_map, List.countP_filter]
  show List.countP _ (spriteOffsets n.val) = List.countP _ (spriteOffsets n.val)
  refine List.countP_congr fun p _ => ?_
  simp [and_comm, and_assoc]

/-- Settles O34: the wrapped pixels flip one after the other, and some are drawn when any bit is set. -/
theorem drawWrapsAroundEdges : Obligations.DrawWrapsAroundEdges := by
  intro x y n s hinv hmode hfits
  have hedge := edge_wraps hmode (drawnPixels x y n s)
  refine ⟨_, exec_drw_draws hfits hedge, fun px py _ _ => ?_, drawnFlag_composite ?_,
    composite_shaped hinv.pixOk _, frame_composite s _⟩
  · rw [composite_cell hinv.cfgOk hinv.pixOk hedge, count_wrapped]
  · rw [ne_eq, List.map_eq_nil_iff]
    simp only [List.eq_nil_iff_forall_not_mem, mem_drawnPixels, not_forall, not_not]
    exact ⟨fun ⟨r, c, h⟩ => ⟨_, r, c, h, rfl⟩, fun ⟨_, r, c, h, _⟩ => ⟨r, c, h⟩⟩

/-! ## Faults -/

/-- The pixels of a sprite come row by row, and in a row from left to right (R202). -/
theorem spritePixels_sorted (px0 py0 : Nat) (rows : List Byte) :
    (spritePixels px0 py0 rows).Pairwise fun p q => p.2 < q.2 ∨ (p.2 = q.2 ∧ p.1 < q.1) := by
  induction rows generalizing py0 with
  | nil => exact List.Pairwise.nil
  | cons row rows ih =>
    rw [spritePixels, List.pairwise_append]
    refine ⟨?_, ih (py0 + 1), fun p hp q hq => ?_⟩
    · rw [rowPixels, List.pairwise_map]
      exact (List.pairwise_lt_range.filter _).imp fun h => .inr ⟨rfl, Nat.add_lt_add_left h px0⟩
    · obtain ⟨c, -, -, rfl⟩ := mem_rowPixels.1 hp
      obtain ⟨r, c', -, -, -, rfl⟩ := mem_spritePixels.1 hq
      exact .inl (by omega)

/-- In a list in order, the first entry that meets a test is the least one that does. -/
theorem find?_eq_of_least {l : List (Nat × Nat)} {lt : Nat × Nat → Nat × Nat → Prop} (hl : l.Pairwise lt)
    {test : Nat × Nat → Bool} {p : Nat × Nat} (hp : p ∈ l) (htest : test p = true)
    (hleast : ∀ q ∈ l, test q = true → ¬ lt q p) : l.find? test = some p := by
  obtain ⟨before, after, rfl⟩ := List.append_of_mem hp
  rw [List.find?_eq_some_iff_append]
  refine ⟨htest, before, after, rfl, fun q hq => ?_⟩
  obtain ⟨-, -, hbefore⟩ := List.pairwise_append.1 hl
  have hlt : lt q p := hbefore q hq p List.mem_cons_self
  rw [Bool.not_eq_true', ← Bool.not_eq_true]
  exact fun hq' => hleast q (List.mem_append_left _ hq) hq' hlt

/-- The pixel of the first set bit outside is the one that `edge` finds. -/
theorem edge_first_outside {x y : Reg} {n : Fin 16} {s : State} (hmode : s.cfg.drawEdge = .fault) {r c : Nat}
    (hout : Outside s (s.V x).toNat (s.V y).toNat n.val r c)
    (hfirst : ∀ r' c', Outside s (s.V x).toNat (s.V y).toNat n.val r' c' → r < r' ∨ (r = r' ∧ c ≤ c')) :
    edge s.cfg (drawnPixels x y n s) = .error ((s.V x).toNat + c + 512 * ((s.V y).toNat + r)) := by
  refine edge_error_iff.2 ⟨hmode, ((s.V x).toNat + c, (s.V y).toNat + r), ?_, rfl⟩
  refine find?_eq_of_least (spritePixels_sorted _ _ _) (mem_drawnPixels.2 ⟨r, c, hout.1, rfl⟩) ?_ fun q hq hq' => ?_
  · rw [(onDisplay_eq_false_iff _ _).2 hout.2]; rfl
  · obtain ⟨r', c', hbit, rfl⟩ := mem_drawnPixels.1 hq
    have hout' := (onDisplay_eq_false_iff s.cfg _).1 (Bool.not_eq_true' _ ▸ hq')
    have := hfirst r' c' ⟨hbit, hout'⟩
    simp only
    omega

/-- Settles O35: the check of the rows, then the first pixel outside. -/
theorem drawFaultsWhole : Obligations.DrawFaultsWhole := by
  refine fun x y n s => ⟨fun hn hover => ?_, fun hfits hmode r c hout hfirst => ?_⟩
  · exact exec_drw_loadOor (not_or.2 ⟨hn, Nat.not_le_of_lt hover⟩)
  · exact exec_drw_drawOor hfits (edge_first_outside hmode hout hfirst)

/-! ## Twice -/

/-- A draw that latches no fault composed the pixels that `edge` keeps. -/
theorem composed_of_exec_drw {x y : Reg} {n : Fin 16} {s t : State} (hexec : exec (.drw x y n) s = .next t)
    (ht : t.fault = .none) : (n.val = 0 ∨ s.i.toNat + n.val ≤ memSize) ∧
      ∃ qs, edge s.cfg (drawnPixels x y n s) = .ok qs ∧ t = s.composite qs := by
  by_cases hfits : n.val = 0 ∨ s.i.toNat + n.val ≤ memSize
  · refine ⟨hfits, ?_⟩
    cases hedge : edge s.cfg (drawnPixels x y n s) with
    | error info => cases (exec_drw_drawOor hfits hedge).symm.trans hexec; cases ht
    | ok qs => cases (exec_drw_draws hfits hedge).symm.trans hexec; exact ⟨qs, rfl, rfl⟩
  · cases (exec_drw_loadOor hfits).symm.trans hexec; cases ht

/-- The second draw reads the same position and the same rows. -/
theorem drawnPixels_composite {x y : Reg} (hx : x ≠ VF) (hy : y ≠ VF) (n : Fin 16) (s : State)
    (qs : List (Nat × Nat)) : drawnPixels x y n (s.composite qs) = drawnPixels x y n s := by
  obtain ⟨hregs, -⟩ := frame_composite s qs
  rw [drawnPixels, hregs x (by simpa using hx), hregs y (by simpa using hy)]
  rfl

/-- Flipping the same cells again gives the display back. -/
theorem composite_twice_pix {s : State} (hcfg : s.cfg.wellFormed = true)
    (hpix : s.pix.shaped s.cfg.dispW s.cfg.dispH) {ps qs : List (Nat × Nat)} (h : edge s.cfg ps = .ok qs) :
    ((s.composite qs).composite qs).pix = s.pix := by
  have hpix' := composite_shaped hpix qs
  refine Display.ext_cells (composite_shaped (s := s.composite qs) hpix' qs) hpix fun px py _ _ => ?_
  rw [composite_cell (s := s.composite qs) hcfg hpix' h, composite_cell hcfg hpix h, Bool.bne_assoc, bne_self_eq_false,
    Bool.bne_false]

/-- Settles O36: the second draw keeps the same pixels, so it completes and flips the same cells. -/
theorem drawingTwiceRestoresDisplay : Obligations.DrawingTwiceRestoresDisplay := by
  intro x y n s t hinv _ hx hy hexec ht
  obtain ⟨hfits, qs, hedge, rfl⟩ := composed_of_exec_drw hexec ht
  have hagain := hedge
  rw [← drawnPixels_composite hx hy n s qs] at hagain
  refine ⟨_, exec_drw_draws (s := s.composite qs) hfits hagain, composite_twice_pix hinv.cfgOk hinv.pixOk hedge,
    fun px py hpx hpy hhit => ?_⟩
  have hne : qs ≠ [] := List.ne_nil_of_mem (mem_of_edge_ok hedge (hits_iff.1 hhit) hpx hpy)
  exact ⟨composite_VF_of_ne_nil hne s, composite_VF_of_ne_nil hne _⟩

end Sys2Proof.Proofs
end
